-- ==== Sys2Proof/Config.lean ====
section
/-! DEFINITION. The parameters the spec fixes (00_scope R5). The parameters it leaves open (R6) have no constant here:
`CELL_BITS`, `PC_BITS`, `PROG_WORDS_MAX` and `ENC_IN_BITS` are natural numbers without a bound in the model (log 2, 3, 6),
and a statement that concerns one of them quantifies over it. -/

namespace Sys2Proof

/-- `WORD_BYTES`: bytes of one instruction word in the stream (R5). -/
def Config.wordBytes : Nat := 8

/-- `MEM_CELLS`: the number of memory cells (R5, 10_state R12). -/
def Config.memCells : Nat := 1024

/-- The highest valid cell address (R5). -/
def Config.lastCell : Nat := 1023

/-- What a cell holds when nothing has written it since reset (10_state R12, 20_memory R33). -/
def Config.freshCell : Nat := 0

end Sys2Proof
end

