-- ==== Sys2Proof/Word.lean ====
section
/-! DEFINITION. The bit-vector types of the instruction word and of the program bytes (00_scope R5, R9; 30_encoding R40). -/

namespace Sys2Proof

/-- One byte of the instruction stream (20_memory R26). -/
abbrev Byte := BitVec 8

/-- An instruction word, 64 bits (30_encoding R40). -/
abbrev Word := BitVec 64

/-- Field A, the opcode, 4 bits (30_encoding R40, R56). -/
abbrev Opcode := BitVec 4

/-- Field B, 20 bits (30_encoding R40). -/
abbrev FieldB := BitVec 20

/-- Field C, 14 bits (30_encoding R40). -/
abbrev FieldC := BitVec 14

/-- Field D, 16 bits (30_encoding R40). -/
abbrev FieldD := BitVec 16

end Sys2Proof
end

