-- ==== Sys2Proof/Syntax.lean ====
section
/-! DEFINITION. Instructions as syntax: one constructor per row of spec/opcode_table.json, the four fields as numbers at the
input of the encoder block, as bit vectors at the output of the decoder block, and the dispatch classes. -/

namespace Sys2Proof

/-- The four field values as the non-negative integers that `encode` takes (30_encoding R43, R48). A value may exceed its
field's width: the encoder then truncates it (R44). -/
structure Fields where
  a : Nat
  b : Nat
  c : Nat
  d : Nat
deriving DecidableEq, Repr

/-- What stands on the input ports of `ENC` (30_encoding R49): four non-negative integers and the bit that says whether D is
given (R45). -/
structure EncoderInput where
  aIn : Nat
  bIn : Nat
  cIn : Nat
  dIn : Nat
  dPresent : Bool
deriving DecidableEq, Repr

/-- What stands on the output ports of `ENC` (30_encoding R49). -/
structure EncoderOutput where
  wordOut : Word
  bytesOut : List Byte
deriving DecidableEq, Repr

/-- What stands on the output ports of `DEC` (30_encoding R53). -/
structure DecodedFields where
  aOut : Opcode
  bOut : FieldB
  cOut : FieldC
  dOut : FieldD
deriving DecidableEq, Repr

/-- The dispatch classes (40_run_loop R75). `undefined` carries the value of field A. -/
inductive OpClass where
  | immediateStore
  | indirectLoad
  | indirectStore
  | shiftStore
  | undefined (code : Opcode)
deriving DecidableEq, Repr

/-- An instruction: the opcode value and the three operand fields of its word. Every constructor keeps all three fields,
those its meaning ignores too (30_encoding R57), so that encoding loses nothing (log 7). -/
inductive Instr where
  /-- opcode 0, 44 R110 -/
  | undefined0 (b : FieldB) (c : FieldC) (d : FieldD)
  /-- opcode 1, 44 R110 -/
  | undefined1 (b : FieldB) (c : FieldC) (d : FieldD)
  /-- opcode 2, 44 R110 -/
  | undefined2 (b : FieldB) (c : FieldC) (d : FieldD)
  /-- opcode 3, 44 R110 -/
  | undefined3 (b : FieldB) (c : FieldC) (d : FieldD)
  /-- opcode 4, 44 R110 -/
  | undefined4 (b : FieldB) (c : FieldC) (d : FieldD)
  /-- opcode 5, 44 R110 -/
  | undefined5 (b : FieldB) (c : FieldC) (d : FieldD)
  /-- opcode 6, 44 R110 -/
  | undefined6 (b : FieldB) (c : FieldC) (d : FieldD)
  /-- opcode 7, 44 R110 -/
  | undefined7 (b : FieldB) (c : FieldC) (d : FieldD)
  /-- opcode 8, 42 R97 -/
  | indirectStore (b : FieldB) (c : FieldC) (d : FieldD)
  /-- opcode 9, 44 R110 -/
  | undefined9 (b : FieldB) (c : FieldC) (d : FieldD)
  /-- opcode 10, 44 R110 -/
  | undefined10 (b : FieldB) (c : FieldC) (d : FieldD)
  /-- opcode 11, 44 R110 -/
  | undefined11 (b : FieldB) (c : FieldC) (d : FieldD)
  /-- opcode 12, 43 R102 -/
  | shiftStore (b : FieldB) (c : FieldC) (d : FieldD)
  /-- opcode 13, 44 R110 -/
  | undefined13 (b : FieldB) (c : FieldC) (d : FieldD)
  /-- opcode 14, 42 R92 -/
  | indirectLoad (b : FieldB) (c : FieldC) (d : FieldD)
  /-- opcode 15, 41 R87 -/
  | immediateStore (b : FieldB) (c : FieldC) (d : FieldD)
deriving DecidableEq, Repr

end Sys2Proof
end

