-- ==== Sys2Proof/WellFormed.lean ====
section
/-! DEFINITION. Well-formedness: the four field values lie "within field ranges" (30_encoding R54). The checks bite on `Fields`,
the natural numbers at the encoder's input. An `Instr` holds its fields at their exact widths, so an ill-formed one cannot be
written down; `Instr.WellFormed` (Decode.lean, beside the opcode map) says the same ranges of it. -/

namespace Sys2Proof

/-- Each of the four values fits its field (30_encoding R40, R54). -/
abbrev Fields.WellFormed (f : Fields) : Prop :=
  f.a ≤ 15 ∧ f.b ≤ 1048575 ∧ f.c ≤ 16383 ∧ f.d ≤ 65535

end Sys2Proof
end

