-- ==== Sys2Proof/Decode.lean ====
section
/-! DEFINITION. The decoder block `DEC` (30_encoding R50 to R53), the opcode map (R56), the dispatch classes (40 R75), and after
them the encoder block `ENC` (R43 to R49) and the binary program format (R61). -/

namespace Sys2Proof

/-- `word_le`: the little-endian 64-bit unsigned interpretation of 8 bytes (30_encoding R51, 20_memory R27). -/
def wordLe (y0 y1 y2 y3 y4 y5 y6 y7 : Byte) : Word :=
  BitVec.ofNat 64
    (y0.toNat + 2 ^ 8 * y1.toNat + 2 ^ 16 * y2.toNat + 2 ^ 24 * y3.toNat
      + 2 ^ 32 * y4.toNat + 2 ^ 40 * y5.toNat + 2 ^ 48 * y6.toNat + 2 ^ 56 * y7.toNat)

/-- `w[3:0]` (30_encoding R40, R50). -/
def wordA (w : Word) : Opcode := w.extractLsb' 0 4

/-- `w[23:4]`. -/
def wordB (w : Word) : FieldB := w.extractLsb' 4 20

/-- `w[37:24]`. -/
def wordC (w : Word) : FieldC := w.extractLsb' 24 14

/-- `w[53:38]`. -/
def wordD (w : Word) : FieldD := w.extractLsb' 38 16

/-- The outputs of `DEC` on `word_in` (30_encoding R50, R53). Bits 63 to 54 are not looked at (R41). -/
def decodeFields (w : Word) : DecodedFields :=
  { aOut := wordA w, bOut := wordB w, cOut := wordC w, dOut := wordD w }

/-- `class(a)` (40_run_loop R75), compared in the order R74 gives. -/
def classify (a : Opcode) : OpClass :=
  if a = 15 then .immediateStore
  else if a = 14 then .indirectLoad
  else if a = 8 then .indirectStore
  else if a = 12 then .shiftStore
  else .undefined a

/-- The instruction of an undefined opcode value (30_encoding R56). The four defined values never reach it (`instrOf`). -/
def undefinedInstr (a : Opcode) (b : FieldB) (c : FieldC) (d : FieldD) : Instr :=
  if a = 0 then .undefined0 b c d
  else if a = 1 then .undefined1 b c d
  else if a = 2 then .undefined2 b c d
  else if a = 3 then .undefined3 b c d
  else if a = 4 then .undefined4 b c d
  else if a = 5 then .undefined5 b c d
  else if a = 6 then .undefined6 b c d
  else if a = 7 then .undefined7 b c d
  else if a = 9 then .undefined9 b c d
  else if a = 10 then .undefined10 b c d
  else if a = 11 then .undefined11 b c d
  else .undefined13 b c d

/-- The instruction of an opcode value and three operand fields: the opcode alone selects it (30_encoding R56). -/
def instrOf (a : Opcode) (b : FieldB) (c : FieldC) (d : FieldD) : Instr :=
  match classify a with
  | .immediateStore => .immediateStore b c d
  | .indirectLoad => .indirectLoad b c d
  | .indirectStore => .indirectStore b c d
  | .shiftStore => .shiftStore b c d
  | .undefined code => undefinedInstr code b c d

/-- The instruction in a word. Total: every word is an instruction (30_encoding R52, R58). -/
def decode (w : Word) : Instr :=
  instrOf (decodeFields w).aOut (decodeFields w).bOut (decodeFields w).cOut (decodeFields w).dOut

/-- What decoding a string of bytes gives: an instruction and the bytes after it, or, where fewer than 8 bytes are left, the
condition the spec names `TruncatedInput` (30_encoding R52, 40_run_loop R80). -/
inductive DecodeResult where
  | instr (i : Instr) (rest : List Byte)
  | truncatedInput
deriving DecidableEq, Repr

/-- `DEC` at the head of a byte string. Total on any bytes; the one rejection is `truncatedInput`. -/
def decodeBytes : List Byte → DecodeResult
  | y0 :: y1 :: y2 :: y3 :: y4 :: y5 :: y6 :: y7 :: rest => .instr (decode (wordLe y0 y1 y2 y3 y4 y5 y6 y7)) rest
  | _ => .truncatedInput

/-- The fields of an instruction as numbers; field A is the opcode value of the constructor (30_encoding R56). -/
def Instr.fields : Instr → Fields
  | .undefined0 b c d => ⟨0, b.toNat, c.toNat, d.toNat⟩
  | .undefined1 b c d => ⟨1, b.toNat, c.toNat, d.toNat⟩
  | .undefined2 b c d => ⟨2, b.toNat, c.toNat, d.toNat⟩
  | .undefined3 b c d => ⟨3, b.toNat, c.toNat, d.toNat⟩
  | .undefined4 b c d => ⟨4, b.toNat, c.toNat, d.toNat⟩
  | .undefined5 b c d => ⟨5, b.toNat, c.toNat, d.toNat⟩
  | .undefined6 b c d => ⟨6, b.toNat, c.toNat, d.toNat⟩
  | .undefined7 b c d => ⟨7, b.toNat, c.toNat, d.toNat⟩
  | .indirectStore b c d => ⟨8, b.toNat, c.toNat, d.toNat⟩
  | .undefined9 b c d => ⟨9, b.toNat, c.toNat, d.toNat⟩
  | .undefined10 b c d => ⟨10, b.toNat, c.toNat, d.toNat⟩
  | .undefined11 b c d => ⟨11, b.toNat, c.toNat, d.toNat⟩
  | .shiftStore b c d => ⟨12, b.toNat, c.toNat, d.toNat⟩
  | .undefined13 b c d => ⟨13, b.toNat, c.toNat, d.toNat⟩
  | .indirectLoad b c d => ⟨14, b.toNat, c.toNat, d.toNat⟩
  | .immediateStore b c d => ⟨15, b.toNat, c.toNat, d.toNat⟩

/-- An instruction's fields are within the field ranges. -/
abbrev Instr.WellFormed (i : Instr) : Prop := i.fields.WellFormed

/-- `encode(a, b, c, d)` (30_encoding R43): mask each value to its field, place it, combine. -/
def encodeFields (a b c d : Nat) : Word :=
  BitVec.ofNat 64
    ((a &&& 0xF) ||| ((b &&& 0xFFFFF) <<< 4) ||| ((c &&& 0x3FFF) <<< 24) ||| ((d &&& 0xFFFF) <<< 38))

/-- Byte `i` of `bytes_le(w)`: `w[8i+7 : 8i]` (30_encoding R46). -/
def byteOf (w : Word) (i : Nat) : Byte := w.extractLsb' (8 * i) 8

/-- `bytes_le(w)`, the lowest byte first (30_encoding R46). -/
def bytesLe (w : Word) : List Byte :=
  [byteOf w 0, byteOf w 1, byteOf w 2, byteOf w 3, byteOf w 4, byteOf w 5, byteOf w 6, byteOf w 7]

/-- The word of an instruction; its unused bits are zero (30_encoding R41, R43). -/
def encode (i : Instr) : Word := encodeFields i.fields.a i.fields.b i.fields.c i.fields.d

/-- The 8 bytes of an instruction in the stream (30_encoding R46). -/
def encodeBytes (i : Instr) : List Byte := bytesLe (encode i)

/-- The value `ENC` packs into field D: `d_present ? d_in : 0` (30_encoding R45, R49). -/
def EncoderInput.dPacked (p : EncoderInput) : Nat := if p.dPresent then p.dIn else 0

/-- The block `ENC`: outputs as a function of the inputs (30_encoding R47, R49). -/
def encBlock (p : EncoderInput) : EncoderOutput :=
  { wordOut := encodeFields p.aIn p.bIn p.cIn p.dPacked
    bytesOut := bytesLe (encodeFields p.aIn p.bIn p.cIn p.dPacked) }

/-- A binary program: the encoder's bytes concatenated in input order, with nothing before, between or after (30_encoding R61). -/
def binaryProgram : List EncoderInput → List Byte
  | [] => []
  | p :: ps => (encBlock p).bytesOut ++ binaryProgram ps

/-- The instruction the decoder reads from an instruction whose bits are `w`, bit 0 the lowest bit of the first byte, every
bit from `nbits` on being 0 (the host's hook, log 9). -/
def decodeTableWord (nbits w : Nat) : Option Instr :=
  match decodeBytes (bytesLe (BitVec.ofNat 64 (w % 2 ^ nbits))) with
  | .instr i _ => some i
  | .truncatedInput => none

end Sys2Proof
end

