-- ==== Sys2Proof/Machine/State.lean ====
section
/-! DEFINITION. The state of the engine `ENG` (10_state R10), the fault record (60_exceptions R123), the reasons a step can stop,
and the state after reset (R22). -/

namespace Sys2Proof.Machine

/-- The data memory: (cell address, cell value) pairs, addresses strictly rising, no pair whose value is what an unlisted
cell reads as (log 4). A cell value is a natural number (10_state R13, log 2). -/
abbrev Memory := List (Nat × Nat)

/-- Which operand produced an out-of-range address (60_exceptions R121). -/
inductive Role where
  /-- field `b` used as an address -/
  | bDirect
  /-- field `c` used as an address -/
  | cDirect
  /-- field `d` used as an address -/
  | dDirect
  /-- the content of cell `b` used as an address -/
  | ptrViaB
  /-- the content of cell `c` used as an address -/
  | ptrViaC
deriving DecidableEq, Repr

/-- The record `info = (k, a, role, addr)` of a fault (60_exceptions R123). -/
structure FaultInfo where
  /-- `k`, the index of the faulting word -/
  index : Nat
  /-- `a`, its opcode -/
  opcode : Opcode
  /-- which check failed -/
  role : Role
  /-- the offending address -/
  addr : Nat
deriving DecidableEq, Repr

/-- The run status (10_state R20). -/
inductive Status where
  | running
  | ended
  | faulted (info : FaultInfo)
deriving DecidableEq, Repr

/-- The state: the triple of 10_state R10, and the program of the run. -/
structure State where
  /-- the 1024-cell memory array (R12) -/
  mem : Memory
  /-- the cursor, counting whole instruction words (R16) -/
  pc : Nat
  /-- the run status (R20) -/
  status : Status
  /-- the program `P` of this run: the spec makes it a parameter of the run that no step changes (R11, 20_memory R26); it
  stands here because a step is a function of the state alone (log 1) -/
  prog : List Byte
deriving DecidableEq, Repr

/-- Why no step is possible. No instruction raises one: `OutOfBounds` is a next state whose status is `faulted` (60 R122). -/
inductive Fault where
  /-- Raised by `step` when the run has ended: no transition is enabled (40_run_loop R72). Safe (log 5). -/
  | runEnded
  /-- Raised by `step` when the run has faulted: no transition is enabled (40_run_loop R72, 60 R125). Safe (log 5). -/
  | runFaulted
deriving DecidableEq, Repr

/-- Why the model declines an instruction. -/
inductive Refusal where
  /-- Raised by `exec` for an instruction without a meaning. None is left without one. Safe. -/
  | notModelled (mnemonic : String)
deriving DecidableEq, Repr

/-- What running an instruction or taking a step answers. -/
abbrev Result := Host.Outcome State Fault Refusal

/-- The state after reset (10_state R22, 70 R141). No program is placed: one is presented from outside (log 1). -/
def State.reset : State :=
  { mem := [], pc := 0, status := .running, prog := [] }

end Sys2Proof.Machine
end

