-- ==== Sys2Proof/Machine/Ops.lean ====
section
/-! DEFINITION. The operations the instructions share: reading and writing a cell, the range check, taking the `OutOfBounds`
fault, advancing the cursor, fetching, ending the run, and starting one. -/

namespace Sys2Proof.Machine

/-- The content of cell `a` (20_memory R30); a cell that is not listed reads as a fresh one (R33). -/
def Memory.read : Memory → Nat → Nat
  | [], _ => Config.freshCell
  | (k, v) :: m, a => if k = a then v else Memory.read m a

/-- The memory with no entry for cell `a`. -/
def Memory.erase : Memory → Nat → Memory
  | [], _ => []
  | (k, v) :: m, a => if k = a then Memory.erase m a else (k, v) :: Memory.erase m a

/-- The memory with an entry for cell `a` put before the first larger address. -/
def Memory.insert : Memory → Nat → Nat → Memory
  | [], a, v => [(a, v)]
  | (k, u) :: m, a, v => if a < k then (a, v) :: (k, u) :: m else (k, u) :: Memory.insert m a v

/-- `MemWrite(a, 1, v)` (20_memory R30), in canonical form: the fresh value is held by having no entry. -/
def Memory.write (m : Memory) (a v : Nat) : Memory :=
  if v = Config.freshCell then Memory.erase m a else Memory.insert (Memory.erase m a) a v

/-- Canonical form from address `lo` on: addresses at least `lo`, strictly rising, each a cell that exists (10_state R12), and
no listed cell holds the fresh value. -/
def Memory.wfFrom : Nat → Memory → Bool
  | _, [] => true
  | lo, (k, v) :: m =>
    decide (lo ≤ k) && decide (k < Config.memCells) && decide (v ≠ Config.freshCell) && Memory.wfFrom (k + 1) m

/-- The memory is in canonical form and lists only cells that exist. -/
def Memory.wf (m : Memory) : Bool := Memory.wfFrom 0 m

/-- The state with cell `a` holding `v`. -/
def State.memWrite (s : State) (a v : Nat) : State := { s with mem := Memory.write s.mem a v }

/-- `pc <- pc + 1` (40_run_loop R76). -/
def State.advance (s : State) : State := { s with pc := s.pc + 1 }

/-- `raise OutOfBounds(role, addr)` in an instruction of opcode `a` (60_exceptions R122, R123): the memory and the cursor stay,
the status becomes `faulted` with the record. -/
def State.raiseOutOfBounds (s : State) (a : Opcode) (role : Role) (addr : Nat) : State :=
  { s with status := .faulted { index := s.pc, opcode := a, role := role, addr := addr } }

/-- `Check(role, addr)` in an instruction of opcode `a`, and then the rest of it (00_scope R8, 60_exceptions R121): an address
above the last cell takes the fault and nothing after it happens. There is no return from it (R130). -/
def check (a : Opcode) (role : Role) (addr : Nat) (s : State) (rest : Result) : Result :=
  if Config.lastCell < addr then .next (s.raiseOutOfBounds a role addr) else rest

/-- `N`, the number of complete words in the program (40_run_loop R70). -/
def State.numWords (s : State) : Nat := s.prog.length / Config.wordBytes

/-- Fetch and decode at the cursor (40_run_loop R71): the instruction in the 8 bytes from byte offset `8 * pc`, or
`truncatedInput` where fewer than 8 are left (R80). -/
def State.fetch (s : State) : DecodeResult := decodeBytes (s.prog.drop (Config.wordBytes * s.pc))

/-- The end-of-run transition (40_run_loop R79): the status becomes `ended`, nothing else changes. -/
def State.endRun (s : State) : State := { s with status := .ended }

/-- Reset: the start of a run of program `p`, in any state (70_reset R140 to R142). Nothing of the state before it is kept. -/
def State.startRun (_ : State) (p : List Byte) : State := { State.reset with prog := p }

/-- The first `n` bytes of a string, zero bytes where it is shorter. -/
def padTo (n : Nat) (p : List Byte) : List Byte := p.take n ++ List.replicate (n - p.length) 0

/-- The program with the bytes `y` in the place of its word number `k`. -/
def placeWord (p : List Byte) (k : Nat) (y : List Byte) : List Byte :=
  padTo (Config.wordBytes * k) p ++ y ++ p.drop (Config.wordBytes * k + Config.wordBytes)

end Sys2Proof.Machine
end

