-- ==== Sys2Proof/Machine/Operands.lean ====
section
/-! DEFINITION. The operand forms (10_state R15, 30_encoding R42, R57): a literal, a cell that is read (its address a field, or the
content of a pointer cell), and the cell that is written. Every address passes the range check of the form first. -/

namespace Sys2Proof.Machine

/-- The literal operand: field C zero-extended to the cell (30_encoding R42, 41 R87). -/
def literal (c : FieldC) : Nat := c.toNat

/-- `Check(role, addr)`, then `MemRead(addr, 1)`, then the rest of the instruction with the value read. -/
def withCell (a : Opcode) (role : Role) (addr : Nat) (s : State) (rest : Nat → Result) : Result :=
  check a role addr s (rest (Memory.read s.mem addr))

/-- `Check(role, addr)`, then `MemWrite(addr, 1, v)`, then `pc <- pc + 1`: how every storing instruction finishes. -/
def storeCell (a : Opcode) (role : Role) (addr v : Nat) (s : State) : Result :=
  check a role addr s (.next (s.memWrite addr v).advance)

end Sys2Proof.Machine
end

