-- ==== Sys2Proof/Machine/ImmediateStore.lean ====
section
/-! DEFINITION. Opcode 15 (41_immediate_store). -/

namespace Sys2Proof.Machine

/-- `ImmediateStore b, c` (R87): `mem[b] <- c`. Field D is not used (R89). -/
def execImmediateStore (b : FieldB) (c : FieldC) (_d : FieldD) (s : State) : Result :=
  storeCell 15 .bDirect b.toNat (literal c) s

end Sys2Proof.Machine
end

