-- ==== Sys2Proof/Machine/Indirect.lean ====
section
/-! DEFINITION. Opcodes 14 and 8 (42_indirect_load_store). Field C names the pointer cell in both; field D is not used. -/

namespace Sys2Proof.Machine

/-- `IndirectLoad b, c` (R92): `mem[b] <- mem[mem[c]]`, checks in the order of R94. -/
def execIndirectLoad (b : FieldB) (c : FieldC) (_d : FieldD) (s : State) : Result :=
  withCell 14 .cDirect c.toNat s fun p =>
    withCell 14 .ptrViaC p s fun v =>
      storeCell 14 .bDirect b.toNat v s

/-- `IndirectStore b, c` (R97): `mem[mem[c]] <- mem[b]`, checks in the order of R99. -/
def execIndirectStore (b : FieldB) (c : FieldC) (_d : FieldD) (s : State) : Result :=
  withCell 8 .bDirect b.toNat s fun v =>
    withCell 8 .cDirect c.toNat s fun p =>
      storeCell 8 .ptrViaC p v s

end Sys2Proof.Machine
end

