-- ==== Sys2Proof/Machine/Flags.lean ====
section
/-! DEFINITION. The hardware has no flags, condition codes or predicates (10_state R18), so this file computes none. It holds the
one arithmetic operation there is (43 R103, R107), whose shifted-out bits are recorded nowhere. -/

namespace Sys2Proof.Machine

/-- `v >> s` (43 R103): the logical right shift by the whole amount `s`, never reduced by a width. -/
def shiftRight (v s : Nat) : Nat := v >>> s

end Sys2Proof.Machine
end

