-- ==== Sys2Proof/Machine/ShiftStore.lean ====
section
/-! DEFINITION. Opcode 12 (43_shift_store). -/

namespace Sys2Proof.Machine

/-- `ShiftStore b, c, d` (R102): `mem[mem[b]] <- mem[c] >> mem[d]`, checks in the order of R106. -/
def execShiftStore (b : FieldB) (c : FieldC) (d : FieldD) (s : State) : Result :=
  withCell 12 .cDirect c.toNat s fun v =>
    withCell 12 .dDirect d.toNat s fun n =>
      withCell 12 .bDirect b.toNat s fun t =>
        storeCell 12 .ptrViaB t (shiftRight v n) s

end Sys2Proof.Machine
end

