-- ==== Sys2Proof/Machine/Undefined.lean ====
section
/-! DEFINITION. The twelve undefined opcode values (44_undefined_opcodes R110 to R112): silent no-ops, each with a definition of
its own, since a later design may give any of them a meaning (R112). -/

namespace Sys2Proof.Machine

/-- The step is consumed, memory unchanged (R110). -/
def noOp (s : State) : Result := .next s.advance

/-- `Undefined(0)` (R110); its fields are ignored whatever they hold (R111). -/
def execUndefined0 (_b : FieldB) (_c : FieldC) (_d : FieldD) (s : State) : Result := noOp s

/-- `Undefined(1)` (R110); its fields are ignored whatever they hold (R111). -/
def execUndefined1 (_b : FieldB) (_c : FieldC) (_d : FieldD) (s : State) : Result := noOp s

/-- `Undefined(2)` (R110); its fields are ignored whatever they hold (R111). -/
def execUndefined2 (_b : FieldB) (_c : FieldC) (_d : FieldD) (s : State) : Result := noOp s

/-- `Undefined(3)` (R110); its fields are ignored whatever they hold (R111). -/
def execUndefined3 (_b : FieldB) (_c : FieldC) (_d : FieldD) (s : State) : Result := noOp s

/-- `Undefined(4)` (R110); its fields are ignored whatever they hold (R111). -/
def execUndefined4 (_b : FieldB) (_c : FieldC) (_d : FieldD) (s : State) : Result := noOp s

/-- `Undefined(5)` (R110); its fields are ignored whatever they hold (R111). -/
def execUndefined5 (_b : FieldB) (_c : FieldC) (_d : FieldD) (s : State) : Result := noOp s

/-- `Undefined(6)` (R110); its fields are ignored whatever they hold (R111). -/
def execUndefined6 (_b : FieldB) (_c : FieldC) (_d : FieldD) (s : State) : Result := noOp s

/-- `Undefined(7)` (R110); its fields are ignored whatever they hold (R111). -/
def execUndefined7 (_b : FieldB) (_c : FieldC) (_d : FieldD) (s : State) : Result := noOp s

/-- `Undefined(9)` (R110); its fields are ignored whatever they hold (R111). -/
def execUndefined9 (_b : FieldB) (_c : FieldC) (_d : FieldD) (s : State) : Result := noOp s

/-- `Undefined(10)` (R110); its fields are ignored whatever they hold (R111). -/
def execUndefined10 (_b : FieldB) (_c : FieldC) (_d : FieldD) (s : State) : Result := noOp s

/-- `Undefined(11)` (R110); its fields are ignored whatever they hold (R111). -/
def execUndefined11 (_b : FieldB) (_c : FieldC) (_d : FieldD) (s : State) : Result := noOp s

/-- `Undefined(13)` (R110); its fields are ignored whatever they hold (R111). -/
def execUndefined13 (_b : FieldB) (_c : FieldC) (_d : FieldD) (s : State) : Result := noOp s

end Sys2Proof.Machine
end

