-- ==== Sys2Proof/Machine/Dispatch.lean ====
section
/-! DEFINITION. The dispatch on the instruction (40_run_loop R73, R75): one arm per row of the opcode table, in the table's order. -/

namespace Sys2Proof.Machine

def exec (i : Instr) (s : State) : Host.Outcome State Fault Refusal :=
  match i with
  | .undefined0 b c d => Sys2Proof.Machine.execUndefined0 b c d s
  | .undefined1 b c d => Sys2Proof.Machine.execUndefined1 b c d s
  | .undefined2 b c d => Sys2Proof.Machine.execUndefined2 b c d s
  | .undefined3 b c d => Sys2Proof.Machine.execUndefined3 b c d s
  | .undefined4 b c d => Sys2Proof.Machine.execUndefined4 b c d s
  | .undefined5 b c d => Sys2Proof.Machine.execUndefined5 b c d s
  | .undefined6 b c d => Sys2Proof.Machine.execUndefined6 b c d s
  | .undefined7 b c d => Sys2Proof.Machine.execUndefined7 b c d s
  | .indirectStore b c d => Sys2Proof.Machine.execIndirectStore b c d s
  | .undefined9 b c d => Sys2Proof.Machine.execUndefined9 b c d s
  | .undefined10 b c d => Sys2Proof.Machine.execUndefined10 b c d s
  | .undefined11 b c d => Sys2Proof.Machine.execUndefined11 b c d s
  | .shiftStore b c d => Sys2Proof.Machine.execShiftStore b c d s
  | .undefined13 b c d => Sys2Proof.Machine.execUndefined13 b c d s
  | .indirectLoad b c d => Sys2Proof.Machine.execIndirectLoad b c d s
  | .immediateStore b c d => Sys2Proof.Machine.execImmediateStore b c d s

end Sys2Proof.Machine
end

