-- ==== Sys2Proof/Machine/Step.lean ====
section
/-! DEFINITION. One transition of the engine (40_run_loop R72, R73, R79). -/

namespace Sys2Proof.Machine

/-- One transition. While the run goes on: the instruction at the cursor where 8 bytes are left there, else the end of the run.
After the run has ended or faulted no transition is enabled (R72). -/
def step (s : State) : Host.Outcome State Fault Refusal :=
  match s.status with
  | .running =>
    match s.fetch with
    | .instr i _ => exec i s
    | .truncatedInput => .next s.endRun
  | .ended => .fault .runEnded
  | .faulted _ => .fault .runFaulted

/-- The state with the instruction whose bits are `w` placed where `step` fetches next, and the run going on (the host's hook,
log 9; it stands for the load of a program from outside, log 1). -/
def State.withFetchWord (s : State) (nbits w : Nat) : State :=
  { s with status := .running, prog := placeWord s.prog s.pc (bytesLe (BitVec.ofNat 64 (w % 2 ^ nbits))) }

end Sys2Proof.Machine
end

