-- ==== Sys2Proof/Machine/Extract.lean ====
section
/-! DEFINITION. Result extraction, the host's read-out of a range after the run (40_run_loop R84 to R86). -/

namespace Sys2Proof.Machine

/-- What a read-out request answers. -/
inductive Extraction where
  /-- the (address, value) pairs of the range (R84) -/
  | records (l : List (Nat × Nat))
  /-- the range is not one of the memory: no records, reported as invalid (R85) -/
  | invalidRange
  /-- the run has no result: no records (R86) -/
  | noResult
deriving DecidableEq, Repr

/-- `n` pairs from address `a` up. -/
def cellRecords (m : Memory) : Nat → Nat → List (Nat × Nat)
  | _, 0 => []
  | a, n + 1 => (a, Memory.read m a) :: cellRecords m (a + 1) n

/-- The read-out of the inclusive range `[first, last]`. It reads the memory and changes nothing (R84). A request that is both
invalid and made without a result is reported as invalid (log 8). -/
def State.extract (s : State) (first last : Nat) : Extraction :=
  if Config.lastCell < last ∨ last < first then .invalidRange
  else if s.status = .ended then .records (cellRecords s.mem first (last - first + 1))
  else .noResult

end Sys2Proof.Machine
end

