-- ==== Sys2Proof/Machine/Run.lean ====
section
/-! DEFINITION. A run (40_run_loop R70, R82): transitions from the state after reset until none is enabled. -/

namespace Sys2Proof.Machine

/-- At most `n` transitions from `s`, stopping where none is enabled. -/
def transitions : Nat → State → State
  | 0, s => s
  | n + 1, s =>
    match step s with
    | .next t => transitions n t
    | .fault _ => s
    | .refused _ => s

/-- `Run(P)` (R70, R82): from reset, as many transitions as a program of `N` words can take, `N` steps and the end of the run. -/
def runProgram (p : List Byte) : State :=
  transitions (p.length / Config.wordBytes + 1) (State.reset.startRun p)

end Sys2Proof.Machine
end

