-- ==== Sys2Proof/Safety.lean ====
section
/-! DEFINITION. The terms claims use: the checks of each instruction, the cells it reads and the cell it stores to, written down from
the spec's own tables and not from the meanings; what storing and faulting look like from outside; the invariant of the machine;
a run as a fold over its words; and what a safe run is. -/

namespace Sys2Proof.Machine

/-- The opcode value of an instruction (30_encoding R56). -/
def opcodeOf (i : Instr) : Opcode := BitVec.ofNat 4 i.fields.a

/-- The first table of 60_exceptions R121: the largest address a role can report. -/
def largestAddr : Role → Nat
  | .bDirect => 1048575
  | .cDirect => 16383
  | .dDirect => 65535
  | .ptrViaB => 16383
  | .ptrViaC => 16383

/-- The second table of 60_exceptions R121: which addresses each instruction checks, in order. -/
def checksOf (i : Instr) (m : Memory) : List (Role × Nat) :=
  match i with
  | .immediateStore b _ _ => [(.bDirect, b.toNat)]
  | .indirectLoad b c _ => [(.cDirect, c.toNat), (.ptrViaC, Memory.read m c.toNat), (.bDirect, b.toNat)]
  | .indirectStore b c _ => [(.bDirect, b.toNat), (.cDirect, c.toNat), (.ptrViaC, Memory.read m c.toNat)]
  | .shiftStore b c d =>
    [(.cDirect, c.toNat), (.dDirect, d.toNat), (.bDirect, b.toNat), (.ptrViaB, Memory.read m b.toNat)]
  | .undefined0 _ _ _ | .undefined1 _ _ _ | .undefined2 _ _ _ | .undefined3 _ _ _ => []
  | .undefined4 _ _ _ | .undefined5 _ _ _ | .undefined6 _ _ _ | .undefined7 _ _ _ => []
  | .undefined9 _ _ _ | .undefined10 _ _ _ | .undefined11 _ _ _ | .undefined13 _ _ _ => []

/-- The first check of a list that fails: an address above 1023 (60_exceptions R121, R128). -/
def firstFailing : List (Role × Nat) → Option (Role × Nat)
  | [] => none
  | (r, a) :: l => if 1023 < a then some (r, a) else firstFailing l

/-- The check that faults instruction `i` on memory `m`, if one does. -/
def faultOf (i : Instr) (m : Memory) : Option (Role × Nat) := firstFailing (checksOf i m)

/-- The read column of the table of 20_memory R31. -/
def cellsRead (i : Instr) (m : Memory) : List Nat :=
  match i with
  | .immediateStore _ _ _ => []
  | .indirectLoad _ c _ => [c.toNat, Memory.read m c.toNat]
  | .indirectStore b c _ => [b.toNat, c.toNat]
  | .shiftStore b c d => [c.toNat, d.toNat, b.toNat]
  | .undefined0 _ _ _ | .undefined1 _ _ _ | .undefined2 _ _ _ | .undefined3 _ _ _ => []
  | .undefined4 _ _ _ | .undefined5 _ _ _ | .undefined6 _ _ _ | .undefined7 _ _ _ => []
  | .undefined9 _ _ _ | .undefined10 _ _ _ | .undefined11 _ _ _ | .undefined13 _ _ _ => []

/-- The write column of the table of 20_memory R31. -/
def cellStored (i : Instr) (m : Memory) : Option Nat :=
  match i with
  | .immediateStore b _ _ => some b.toNat
  | .indirectLoad b _ _ => some b.toNat
  | .indirectStore _ c _ => some (Memory.read m c.toNat)
  | .shiftStore b _ _ => some (Memory.read m b.toNat)
  | .undefined0 _ _ _ | .undefined1 _ _ _ | .undefined2 _ _ _ | .undefined3 _ _ _ => none
  | .undefined4 _ _ _ | .undefined5 _ _ _ | .undefined6 _ _ _ | .undefined7 _ _ _ => none
  | .undefined9 _ _ _ | .undefined10 _ _ _ | .undefined11 _ _ _ | .undefined13 _ _ _ => none

/-- From `s`, instruction `i` answers a next state in which cell `a` holds `v`, every other cell is as before, the cursor is one
further, and the status and the program are as before. -/
def Stores (i : Instr) (s : State) (a v : Nat) : Prop :=
  ∃ t, exec i s = .next t ∧ t.pc = s.pc + 1 ∧ t.status = s.status ∧ t.prog = s.prog ∧
    ∀ x, Memory.read t.mem x = if x = a then v else Memory.read s.mem x

/-- From `s`, instruction `i` of opcode `a` raises `OutOfBounds(role, addr)` (60_exceptions R122, R123): the next state differs
in the status alone. -/
def Raises (i : Instr) (s : State) (a : Opcode) (role : Role) (addr : Nat) : Prop :=
  exec i s = .next { s with status := .faulted { index := s.pc, opcode := a, role := role, addr := addr } }

/-- The word at index `k` of a program (20_memory R27, 40_run_loop R71); meant for `k` below the number of words. -/
def wordAt (p : List Byte) (k : Nat) : Word :=
  wordLe (p.getD (8 * k) 0) (p.getD (8 * k + 1) 0) (p.getD (8 * k + 2) 0) (p.getD (8 * k + 3) 0)
    (p.getD (8 * k + 4) 0) (p.getD (8 * k + 5) 0) (p.getD (8 * k + 6) 0) (p.getD (8 * k + 7) 0)

/-- The words of a program: `w_0` to `w_(N-1)` (40_run_loop R82). -/
def wordsOf (p : List Byte) : List Word := (List.range (p.length / 8)).map (wordAt p)

/-- The fold of 40_run_loop R82: one step a word, stopping at the first word whose step faults. -/
def foldSteps : List Word → State → State
  | [], s => s
  | w :: ws, s =>
    match exec (decode w) s with
    | .next t => if t.status = .running then foldSteps ws t else t
    | .fault _ => s
    | .refused _ => s

/-- Every cell holds a value below `n`. With `n` a power of two `2 ^ CELL_BITS`: every value fits its cell (10_state R13, R14). -/
def CellsBelow (n : Nat) (m : Memory) : Prop := ∀ a, Memory.read m a < n

/-- The invariant of the machine. -/
structure Inv (s : State) : Prop where
  /-- the memory lists only cells that exist (10_state R12), in the canonical form that is the model's choice (log 4) -/
  canonical : Memory.wf s.mem = true
  /-- every cell holds a value from 0 to 16383 (10_state R14) -/
  cells : CellsBelow 16384 s.mem
  /-- the cursor never passes the number of words (40_run_loop R79) -/
  cursor : s.pc ≤ s.prog.length / 8
  /-- a run ends with the cursor at the number of words (40_run_loop R79) -/
  ended : s.status = .ended → s.pc = s.prog.length / 8
  /-- a fault record describes the first failing check of the word at the cursor (60_exceptions R121 to R123) -/
  faulted : ∀ info, s.status = .faulted info →
    s.pc < s.prog.length / 8 ∧ info.index = s.pc ∧
      info.opcode = wordA (wordAt s.prog s.pc) ∧
      faultOf (decode (wordAt s.prog s.pc)) s.mem = some (info.role, info.addr)

/-- A run is safe if it ends without a fault; only then has it a result (40_run_loop R86, 60_exceptions R125). -/
def SafeRun (p : List Byte) : Prop := (runProgram p).status = .ended

end Sys2Proof.Machine
end

