-- ==== Sys2Proof/Certificates/Slice0/Obligations.lean ====
section
/-! DEFINITION. The statements for the provers. Each docstring names the rule or the section of spec/ it formalises. Where the spec
marks a rule as its own inference ("derived"), the statement's basis is 'derived' and its docstring says so. -/

open Sys2Proof Sys2Proof.Machine

/-! ### Reset and the start of a run -/

/-- R141. After reset every cell is 0, `pc` is 0 and the status is `Running`, whatever program is presented; and execution begins
with the first 8 bytes of the program. -/
def Obligations.ResetLeavesFreshState : Prop :=
  ((∀ a, Memory.read State.reset.mem a = 0) ∧ State.reset.pc = 0 ∧ State.reset.status = .running) ∧
  (∀ (s : State) (p : List Byte),
    (∀ a, Memory.read (s.startRun p).mem a = 0) ∧ (s.startRun p).pc = 0 ∧ (s.startRun p).status = .running) ∧
  (∀ (s : State) (y0 y1 y2 y3 y4 y5 y6 y7 : Byte) (rest : List Byte),
    let t := s.startRun (y0 :: y1 :: y2 :: y3 :: y4 :: y5 :: y6 :: y7 :: rest)
    step t = exec (decode (wordLe y0 y1 y2 y3 y4 y5 y6 y7)) t)

/-- 70_reset section 1 and 10_state section 6: reset may be applied in any state and always produces the same state, and
nothing of an earlier run is visible to a later one. -/
def Obligations.ResetKeepsNothing : Prop :=
  ∀ (s t : State) (p : List Byte), s.startRun p = t.startRun p ∧ (s.startRun p).prog = p

/-! ### The encoder and the decoder -/

/-- 30_encoding section 2: the packing expression is also the sum of the reduced fields at their places (the spec marks the
expression as its own derivation). -/
def Obligations.EncodeIsSumOfFields : Prop :=
  ∀ a b c d : Nat, (encodeFields a b c d).toNat =
    a % 16 + 16 * (b % 2 ^ 20) + 2 ^ 24 * (c % 2 ^ 14) + 2 ^ 38 * (d % 2 ^ 16)

/-- R44, the truncation law, with its two examples. -/
def Obligations.EncodeTruncates : Prop :=
  (∀ a b c d : Nat, encodeFields a b c d = encodeFields (a &&& 0xF) (b &&& 0xFFFFF) (c &&& 0x3FFF) (d &&& 0xFFFF)) ∧
  encodeFields 16 0 0 0 = encodeFields 0 0 0 0 ∧ encodeFields 0 0 0 0 = 0 ∧
  encodeFields 31 1048581 16426 65545 = encodeFields 15 5 42 9

/-- R45 and R49. The outputs of `ENC` are the packed word and its bytes; with `d_present` 0 the value on `d_in` is ignored and 0
is packed. -/
def Obligations.EncoderBlockOutputs : Prop :=
  (∀ p : EncoderInput,
    (encBlock p).wordOut = encodeFields p.aIn p.bIn p.cIn (if p.dPresent then p.dIn else 0) ∧
    (encBlock p).bytesOut = bytesLe (encBlock p).wordOut) ∧
  (∀ a b c d e : Nat, encBlock ⟨a, b, c, d, false⟩ = encBlock ⟨a, b, c, e, false⟩ ∧
    encBlock ⟨a, b, c, d, false⟩ = encBlock ⟨a, b, c, 0, true⟩)

/-- R50. The decoder's fields are the spec's shifts and masks of the word, and the decoder is the inverse of packing: on a packed
word it gives back the masked fields. -/
def Obligations.DecodeIsShiftAndMask : Prop :=
  (∀ w : Word,
    (decodeFields w).aOut.toNat = w.toNat &&& 0xF ∧
    (decodeFields w).bOut.toNat = (w.toNat >>> 4) &&& 0xFFFFF ∧
    (decodeFields w).cOut.toNat = (w.toNat >>> 24) &&& 0x3FFF ∧
    (decodeFields w).dOut.toNat = (w.toNat >>> 38) &&& 0xFFFF) ∧
  (∀ a b c d : Nat, decodeFields (encodeFields a b c d) =
    ⟨BitVec.ofNat 4 a, BitVec.ofNat 20 b, BitVec.ofNat 14 c, BitVec.ofNat 16 d⟩)

/-- R54. Within field ranges decoding an encoded tuple gives it back; for arbitrary inputs it gives the masked tuple; and the same
through the eight bytes. -/
def Obligations.FieldRoundTrip : Prop :=
  (∀ f : Fields, f.WellFormed →
    let o := decodeFields (encodeFields f.a f.b f.c f.d)
    (⟨o.aOut.toNat, o.bOut.toNat, o.cOut.toNat, o.dOut.toNat⟩ : Fields) = f) ∧
  (∀ a b c d : Nat,
    let o := decodeFields (encodeFields a b c d)
    o.aOut.toNat = a &&& 0xF ∧ o.bOut.toNat = b &&& 0xFFFFF ∧ o.cOut.toNat = c &&& 0x3FFF ∧ o.dOut.toNat = d &&& 0xFFFF) ∧
  (∀ a b c d : Nat,
    let w := encodeFields a b c d
    decodeFields (wordLe (byteOf w 0) (byteOf w 1) (byteOf w 2) (byteOf w 3) (byteOf w 4) (byteOf w 5) (byteOf w 6) (byteOf w 7))
      = decodeFields w)

/-- 30_encoding sections 3 and 4. For every instruction, with every operand at every value, decoding its word gives it back, and
decoding its bytes gives it back with the bytes that follow. -/
def Obligations.InstrRoundTrip : Prop :=
  ∀ i : Instr, decode (encode i) = i ∧ ∀ rest, decodeBytes (encodeBytes i ++ rest) = .instr i rest

/-- 30_encoding section 4, the reverse round trip (marked as derived there): re-encoding a decoded word clears bits 63 to 54 and
changes nothing else, so it gives the word back exactly when the word is below `2 ^ 54`. -/
def Obligations.ReverseRoundTrip : Prop :=
  ∀ w : Word, encode (decode w) = w &&& 0x003FFFFFFFFFFFFF#64 ∧ (encode (decode w) = w ↔ w.toNat < 2 ^ 54)

/-- 30_encoding section 3 (marked as derived there): the byte serialisation and the little-endian reading are inverse. -/
def Obligations.ByteSerialisationInverse : Prop :=
  (∀ w : Word,
    wordLe (byteOf w 0) (byteOf w 1) (byteOf w 2) (byteOf w 3) (byteOf w 4) (byteOf w 5) (byteOf w 6) (byteOf w 7) = w) ∧
  (∀ y0 y1 y2 y3 y4 y5 y6 y7 : Byte,
    bytesLe (wordLe y0 y1 y2 y3 y4 y5 y6 y7) = [y0, y1, y2, y3, y4, y5, y6, y7])

/-- 30_encoding section 2, the table of the eight bytes (marked as derived there), as numbers. -/
def Obligations.EncodedByteLayout : Prop :=
  ∀ (a : Opcode) (b : FieldB) (c : FieldC) (d : FieldD),
    (bytesLe (encodeFields a.toNat b.toNat c.toNat d.toNat)).map BitVec.toNat =
      [a.toNat + 16 * (b.toNat % 16), b.toNat / 16 % 256, b.toNat / 4096, c.toNat % 256,
        c.toNat / 256 + 64 * (d.toNat % 4), d.toNat / 4 % 256, d.toNat / 1024, 0]

/-- 30_encoding section 1, bits 63 to 54 (marked as derived there): zero in every encoded word, and a word is decoded like the
same word with those bits cleared. -/
def Obligations.UnusedBitsIgnored : Prop :=
  (∀ a b c d : Nat, (encodeFields a b c d).toNat < 2 ^ 54) ∧
  (∀ w : Word, decodeFields w = decodeFields (w &&& 0x003FFFFFFFFFFFFF#64) ∧
    decode w = decode (w &&& 0x003FFFFFFFFFFFFF#64))

/-- R56, the opcode map: `word[3:0]` alone selects the instruction, all sixteen values. -/
def Obligations.OpcodeMap : Prop :=
  ∀ w : Word,
    (wordA w = 0 → decode w = .undefined0 (wordB w) (wordC w) (wordD w)) ∧
    (wordA w = 1 → decode w = .undefined1 (wordB w) (wordC w) (wordD w)) ∧
    (wordA w = 2 → decode w = .undefined2 (wordB w) (wordC w) (wordD w)) ∧
    (wordA w = 3 → decode w = .undefined3 (wordB w) (wordC w) (wordD w)) ∧
    (wordA w = 4 → decode w = .undefined4 (wordB w) (wordC w) (wordD w)) ∧
    (wordA w = 5 → decode w = .undefined5 (wordB w) (wordC w) (wordD w)) ∧
    (wordA w = 6 → decode w = .undefined6 (wordB w) (wordC w) (wordD w)) ∧
    (wordA w = 7 → decode w = .undefined7 (wordB w) (wordC w) (wordD w)) ∧
    (wordA w = 8 → decode w = .indirectStore (wordB w) (wordC w) (wordD w)) ∧
    (wordA w = 9 → decode w = .undefined9 (wordB w) (wordC w) (wordD w)) ∧
    (wordA w = 10 → decode w = .undefined10 (wordB w) (wordC w) (wordD w)) ∧
    (wordA w = 11 → decode w = .undefined11 (wordB w) (wordC w) (wordD w)) ∧
    (wordA w = 12 → decode w = .shiftStore (wordB w) (wordC w) (wordD w)) ∧
    (wordA w = 13 → decode w = .undefined13 (wordB w) (wordC w) (wordD w)) ∧
    (wordA w = 14 → decode w = .indirectLoad (wordB w) (wordC w) (wordD w)) ∧
    (wordA w = 15 → decode w = .immediateStore (wordB w) (wordC w) (wordD w)) ∧
    (w.toNat % 16 = (wordA w).toNat)

/-- R75. The classification of the sixteen opcode values; the code that `Undefined` carries is the opcode value and has no effect on
execution; and the instruction run for an opcode value is the one of its class. -/
def Obligations.DispatchClasses : Prop :=
  classify 15 = .immediateStore ∧ classify 14 = .indirectLoad ∧ classify 8 = .indirectStore ∧ classify 12 = .shiftStore ∧
  (∀ a ∈ ([0, 1, 2, 3, 4, 5, 6, 7, 9, 10, 11, 13] : List Opcode), classify a = .undefined a) ∧
  (∀ (a a' : Opcode) (b : FieldB) (c : FieldC) (d : FieldD) (s : State),
    classify a = .undefined a → classify a' = .undefined a' → exec (instrOf a b c d) s = exec (instrOf a' b c d) s) ∧
  (∀ i : Instr, ∀ w : Word, decode w = i → opcodeOf i = wordA w)

/-- 95_test_vectors, parts 1 and 2: a few words written out decode to their instructions. -/
def Obligations.WrittenOutWordsDecode : Prop :=
  decode 0x000000002A00005F = .immediateStore 5 42 0 ∧
  decode 0x000000000700000E = .indirectLoad 0 7 0 ∧
  decode 0x0000000007000038 = .indirectStore 3 7 0 ∧
  decode 0x000002C00A00014C = .shiftStore 20 10 11 ∧
  decode 0x000000C002000019 = .undefined9 1 2 3 ∧
  decode 0xFFC000002A00005F = .immediateStore 5 42 0

/-- R52. Every 8 bytes decode to an instruction, with no state and whatever stands after them; bits 63 to 54 are ignored; with fewer
than 8 bytes no tuple is produced. -/
def Obligations.DecoderTotalOnEightBytes : Prop :=
  (∀ y : List Byte,
    (8 ≤ y.length → decodeBytes y = .instr (decode (wordAt y 0)) (y.drop 8)) ∧
    (y.length < 8 → decodeBytes y = .truncatedInput)) ∧
  (∀ w w' : Word, w.toNat % 2 ^ 54 = w'.toNat % 2 ^ 54 → decodeFields w = decodeFields w')

/-- R58. No encoding is illegal: every word runs to a next state. The unused bits are zero on encode and ignored on decode, the
all-zero word is `Undefined(0)` and a no-op, the all-ones word is an `ImmediateStore` to 1048575 and faults. -/
def Obligations.EveryWordRuns : Prop :=
  (∀ (w : Word) (s : State), ∃ t, exec (decode w) s = .next t) ∧
  (∀ (w : Word) (s : State), wordA w ∈ ([0, 1, 2, 3, 4, 5, 6, 7, 9, 10, 11, 13] : List Opcode) →
    exec (decode w) s = .next { s with pc := s.pc + 1 }) ∧
  (∀ a b c d : Nat, (encodeFields a b c d).toNat < 2 ^ 54) ∧
  (∀ w : Word, decode (w &&& 0x003FFFFFFFFFFFFF#64) = decode w) ∧
  decode 0x0000000000000000 = .undefined0 0 0 0 ∧
  decode 0xFFFFFFFFFFFFFFFF = .immediateStore 1048575 16383 65535 ∧
  (∀ s, Raises (decode 0xFFFFFFFFFFFFFFFF) s 15 .bDirect 1048575)

/-- R61. A binary program has 8 bytes an instruction and nothing else, and its word number `k` is the encoder's word of input
number `k`. -/
def Obligations.BinaryProgramWords : Prop :=
  (∀ ps : List EncoderInput, (binaryProgram ps).length = 8 * ps.length) ∧
  (∀ (ps : List EncoderInput) (k : Nat) (h : k < ps.length), wordAt (binaryProgram ps) k = (encBlock ps[k]).wordOut) ∧
  (∀ ps qs : List EncoderInput, binaryProgram (ps ++ qs) = binaryProgram ps ++ binaryProgram qs)

/-! ### The run loop -/

/-- 40_run_loop section 1, the step: when the bytes at the cursor decode to an instruction, `step` is `exec` of it on the same
state, with nothing added around it; when fewer than 8 bytes are left, `step` ends the run. -/
def Obligations.StepRunsDecodedInstr : Prop :=
  ∀ s : State, s.status = .running →
    (∀ i rest, decodeBytes (s.prog.drop (8 * s.pc)) = .instr i rest → step s = exec i s) ∧
    (decodeBytes (s.prog.drop (8 * s.pc)) = .truncatedInput → step s = .next { s with status := .ended })

/-- R71. When the cursor is below the number of words, the word run is the little-endian reading of bytes `8 * pc` to
`8 * pc + 7` of the program; fetching changes nothing (the instruction runs on the same state) and cannot fault (a next state
follows). -/
def Obligations.StepRunsFetchedWord : Prop :=
  ∀ s : State, s.status = .running → s.pc < s.prog.length / 8 →
    8 * s.pc + 7 ≤ s.prog.length - 1 ∧
    step s = exec (decode (wordLe (s.prog.getD (8 * s.pc) 0) (s.prog.getD (8 * s.pc + 1) 0)
      (s.prog.getD (8 * s.pc + 2) 0) (s.prog.getD (8 * s.pc + 3) 0) (s.prog.getD (8 * s.pc + 4) 0)
      (s.prog.getD (8 * s.pc + 5) 0) (s.prog.getD (8 * s.pc + 6) 0) (s.prog.getD (8 * s.pc + 7) 0))) s ∧
    ∃ t, step s = .next t

/-- 40_run_loop section 1, enabling (marked as derived there): a transition is enabled exactly when the status is `Running`; below
the number of words it is the step of the word at the cursor, from there on the end of the run. -/
def Obligations.EnabledTransitions : Prop :=
  (∀ s : State, (∃ t, step s = .next t) ↔ s.status = .running) ∧
  (∀ s : State, s.status = .running → s.pc < s.prog.length / 8 → step s = exec (decode (wordAt s.prog s.pc)) s) ∧
  (∀ s : State, s.status = .running → s.prog.length / 8 ≤ s.pc → step s = .next { s with status := .ended })

/-- R79. At or past the number of words the engine sets the status to `Ended` and changes nothing else; a run that ends has its
cursor at the number of words, and fewer than 8 bytes are left there. -/
def Obligations.EndOfRun : Prop :=
  (∀ s : State, s.status = .running → s.prog.length / 8 ≤ s.pc → step s = .next { s with status := .ended }) ∧
  (∀ p : List Byte, (runProgram p).status = .ended →
    (runProgram p).pc = p.length / 8 ∧ p.length - 8 * (p.length / 8) ≤ 7)

/-- R20. The transitions of the status: a step may be taken only while `Running`; `Ended` is entered by the end of the run only,
`Faulted` by an out-of-range address only; both are terminal. -/
def Obligations.StatusTransitions : Prop :=
  State.reset.status = .running ∧
  (∀ s t : State, step s = .next t → s.status = .running ∧
    ((t.status = .running ∧ s.pc < s.prog.length / 8 ∧ faultOf (decode (wordAt s.prog s.pc)) s.mem = none) ∨
     (t.status = .ended ∧ s.prog.length / 8 ≤ s.pc) ∨
     (∃ info, t.status = .faulted info ∧ s.pc < s.prog.length / 8 ∧
       faultOf (decode (wordAt s.prog s.pc)) s.mem = some (info.role, info.addr)))) ∧
  (∀ s t : State, s.status = .ended → step s ≠ .next t) ∧
  (∀ (s t : State) (info : FaultInfo), s.status = .faulted info → step s ≠ .next t)

/-- R125. From `Faulted` no step is enabled, no instruction clears the fault, and there is no result; only reset leaves it. -/
def Obligations.FaultIsTerminal : Prop :=
  ∀ (s : State) (info : FaultInfo), s.status = .faulted info →
    (∀ t, step s ≠ .next t) ∧
    (∀ (i : Instr) (t : State), exec i s = .next t → ∃ info', t.status = .faulted info') ∧
    (∀ (first last : Nat) (l : List (Nat × Nat)), s.extract first last ≠ .records l) ∧
    (∀ p, (s.startRun p).status = .running)

/-- R76. Every step that does not fault advances the cursor by one word, 8 bytes, whatever the opcode and the operands; a step
that faults leaves it. -/
def Obligations.CursorAdvances : Prop :=
  ∀ (i : Instr) (s : State), ∃ t, exec i s = .next t ∧
    (faultOf i s.mem = none → t.pc = s.pc + 1 ∧ 8 * t.pc = 8 * s.pc + 8 ∧ t.status = s.status) ∧
    (faultOf i s.mem ≠ none → t.pc = s.pc)

/-! ### The fault -/

/-- R121. An instruction faults exactly when one of the checks its row of the table lists fails, and reports the first that does.
The addresses reported lie above 1023 and below the bound of their role; those of the pointer roles do so where every cell fits
14 bits (an invariant, stated on its own). -/
def Obligations.FirstFailingCheckDecides : Prop :=
  (∀ (i : Instr) (s : State), faultOf i s.mem = none → ∃ t, exec i s = .next t ∧ t.status = s.status) ∧
  (∀ (i : Instr) (s : State) (role : Role) (addr : Nat), faultOf i s.mem = some (role, addr) →
    Raises i s (opcodeOf i) role addr) ∧
  (∀ (i : Instr) (m : Memory), faultOf i m = none ↔ ∀ q ∈ checksOf i m, q.2 ≤ 1023) ∧
  (∀ (i : Instr) (m : Memory) (role : Role) (addr : Nat), CellsBelow 16384 m → faultOf i m = some (role, addr) →
    1023 < addr ∧
    addr ≤ largestAddr role)

/-- R122 and R123. A step that takes the machine from `Running` to `Faulted` leaves the memory, the cursor and the program as they
were, records the index, the opcode, the role and the address, and no further step follows. The address bound at the top
holds where every cell fits 14 bits (an invariant, stated on its own). -/
def Obligations.FaultIsPrecise : Prop :=
  (∀ (s t : State) (info : FaultInfo), step s = .next t → t.status = .faulted info →
    t = { s with status := .faulted info } ∧
    info.index = s.pc ∧ info.opcode = wordA (wordAt s.prog s.pc) ∧
    info.opcode ∈ ([15, 14, 8, 12] : List Opcode) ∧
    faultOf (decode (wordAt s.prog s.pc)) s.mem = some (info.role, info.addr) ∧
    1023 < info.addr ∧ (CellsBelow 16384 s.mem → info.addr ≤ 1048575) ∧
    ∀ u, step t ≠ .next u)

/-! ### The instructions -/

/-- R87 and R90, `ImmediateStore`: encoding, effect with everything it leaves unchanged, the fault, and the worked example. -/
def Obligations.ImmediateStoreEffect : Prop :=
  (∀ w : Word, wordA w = 15 → decode w = .immediateStore (wordB w) (wordC w) (wordD w)) ∧
  (∀ (b : FieldB) (c : FieldC) (d : FieldD) (s : State), b.toNat ≤ 1023 →
    Stores (.immediateStore b c d) s b.toNat c.toNat) ∧
  (∀ (b : FieldB) (c : FieldC) (d : FieldD) (s : State), 1023 < b.toNat →
    Raises (.immediateStore b c d) s 15 .bDirect b.toNat) ∧
  (encodeFields 15 5 42 0 = 0x000000002A00005F ∧
    bytesLe (encodeFields 15 5 42 0) = [0x5F, 0x00, 0x00, 0x2A, 0x00, 0x00, 0x00, 0x00] ∧
    ∀ s, Stores (decode (encodeFields 15 5 42 0)) s 5 42) ∧
  (encodeFields 15 1024 0 0 = 0x000000000000400F ∧
    ∀ w : Word, wordA w = 15 → 1023 < (wordB w).toNat → 0x400F ≤ w.toNat)

/-- R89. Field D has no effect on `ImmediateStore`; the store overwrites whatever the cell held; storing the same value twice
leaves the state as after the first store but for the cursor; whether it faults does not depend on the memory. -/
def Obligations.ImmediateStoreRepeats : Prop :=
  (∀ (b : FieldB) (c : FieldC) (d d' : FieldD) (s : State),
    exec (.immediateStore b c d) s = exec (.immediateStore b c d') s) ∧
  (∀ (b : FieldB) (c : FieldC) (d : FieldD) (s t : State), b.toNat ≤ 1023 → exec (.immediateStore b c d) s = .next t →
    Memory.read t.mem b.toNat = c.toNat ∧
    exec (.immediateStore b c d) t = .next { t with pc := t.pc + 1 }) ∧
  (∀ (b : FieldB) (c : FieldC) (d : FieldD) (m m' : Memory),
    faultOf (.immediateStore b c d) m = faultOf (.immediateStore b c d) m')

/-- R92 and R94, `IndirectLoad`: encoding, effect with everything it leaves unchanged, the three faults in order, the worked
example, and the example of a pointer that a literal put out of range. -/
def Obligations.IndirectLoadEffect : Prop :=
  (∀ w : Word, wordA w = 14 → decode w = .indirectLoad (wordB w) (wordC w) (wordD w)) ∧
  (∀ (b : FieldB) (c : FieldC) (d : FieldD) (s : State),
    c.toNat ≤ 1023 → Memory.read s.mem c.toNat ≤ 1023 → b.toNat ≤ 1023 →
    Stores (.indirectLoad b c d) s b.toNat (Memory.read s.mem (Memory.read s.mem c.toNat))) ∧
  (∀ (b : FieldB) (c : FieldC) (d : FieldD) (s : State), 1023 < c.toNat →
    Raises (.indirectLoad b c d) s 14 .cDirect c.toNat) ∧
  (∀ (b : FieldB) (c : FieldC) (d : FieldD) (s : State), c.toNat ≤ 1023 → 1023 < Memory.read s.mem c.toNat →
    Raises (.indirectLoad b c d) s 14 .ptrViaC (Memory.read s.mem c.toNat)) ∧
  (∀ (b : FieldB) (c : FieldC) (d : FieldD) (s : State),
    c.toNat ≤ 1023 → Memory.read s.mem c.toNat ≤ 1023 → 1023 < b.toNat →
    Raises (.indirectLoad b c d) s 14 .bDirect b.toNat) ∧
  (encodeFields 14 0 7 0 = 0x000000000700000E ∧
    bytesLe (encodeFields 14 0 7 0) = [0x0E, 0x00, 0x00, 0x07, 0x00, 0x00, 0x00, 0x00] ∧
    ∀ s, Memory.read s.mem 7 = 5 → Memory.read s.mem 5 = 42 → Stores (decode (encodeFields 14 0 7 0)) s 0 42) ∧
  (∀ s t, exec (.immediateStore 7 2000 0) s = .next t → Raises (.indirectLoad 0 7 0) t 14 .ptrViaC 2000)

/-- R97 and R99, `IndirectStore`: encoding, effect with everything it leaves unchanged, the three faults in order, and the worked
example. The cell stored to is the content of cell `c` before the step. -/
def Obligations.IndirectStoreEffect : Prop :=
  (∀ w : Word, wordA w = 8 → decode w = .indirectStore (wordB w) (wordC w) (wordD w)) ∧
  (∀ (b : FieldB) (c : FieldC) (d : FieldD) (s : State),
    b.toNat ≤ 1023 → c.toNat ≤ 1023 → Memory.read s.mem c.toNat ≤ 1023 →
    Stores (.indirectStore b c d) s (Memory.read s.mem c.toNat) (Memory.read s.mem b.toNat)) ∧
  (∀ (b : FieldB) (c : FieldC) (d : FieldD) (s : State), 1023 < b.toNat →
    Raises (.indirectStore b c d) s 8 .bDirect b.toNat) ∧
  (∀ (b : FieldB) (c : FieldC) (d : FieldD) (s : State), b.toNat ≤ 1023 → 1023 < c.toNat →
    Raises (.indirectStore b c d) s 8 .cDirect c.toNat) ∧
  (∀ (b : FieldB) (c : FieldC) (d : FieldD) (s : State),
    b.toNat ≤ 1023 → c.toNat ≤ 1023 → 1023 < Memory.read s.mem c.toNat →
    Raises (.indirectStore b c d) s 8 .ptrViaC (Memory.read s.mem c.toNat)) ∧
  (encodeFields 8 3 7 0 = 0x0000000007000038 ∧
    bytesLe (encodeFields 8 3 7 0) = [0x38, 0x00, 0x00, 0x07, 0x00, 0x00, 0x00, 0x00] ∧
    ∀ s, Memory.read s.mem 3 = 42 → Memory.read s.mem 7 = 5 → Stores (decode (encodeFields 8 3 7 0)) s 5 42)

/-- R102 and R106, `ShiftStore`: encoding, effect with everything it leaves unchanged, the four faults in order, and the worked
example. The cell stored to is the content of cell `b` before the step; no shift amount faults. -/
def Obligations.ShiftStoreEffect : Prop :=
  (∀ w : Word, wordA w = 12 → decode w = .shiftStore (wordB w) (wordC w) (wordD w)) ∧
  (∀ (b : FieldB) (c : FieldC) (d : FieldD) (s : State),
    c.toNat ≤ 1023 → d.toNat ≤ 1023 → b.toNat ≤ 1023 → Memory.read s.mem b.toNat ≤ 1023 →
    Stores (.shiftStore b c d) s (Memory.read s.mem b.toNat)
      (Memory.read s.mem c.toNat / 2 ^ Memory.read s.mem d.toNat)) ∧
  (∀ (b : FieldB) (c : FieldC) (d : FieldD) (s : State), 1023 < c.toNat →
    Raises (.shiftStore b c d) s 12 .cDirect c.toNat) ∧
  (∀ (b : FieldB) (c : FieldC) (d : FieldD) (s : State), c.toNat ≤ 1023 → 1023 < d.toNat →
    Raises (.shiftStore b c d) s 12 .dDirect d.toNat) ∧
  (∀ (b : FieldB) (c : FieldC) (d : FieldD) (s : State), c.toNat ≤ 1023 → d.toNat ≤ 1023 → 1023 < b.toNat →
    Raises (.shiftStore b c d) s 12 .bDirect b.toNat) ∧
  (∀ (b : FieldB) (c : FieldC) (d : FieldD) (s : State),
    c.toNat ≤ 1023 → d.toNat ≤ 1023 → b.toNat ≤ 1023 → 1023 < Memory.read s.mem b.toNat →
    Raises (.shiftStore b c d) s 12 .ptrViaB (Memory.read s.mem b.toNat)) ∧
  (encodeFields 12 20 10 11 = 0x000002C00A00014C ∧
    bytesLe (encodeFields 12 20 10 11) = [0x4C, 0x01, 0x00, 0x0A, 0xC0, 0x02, 0x00, 0x00] ∧
    ∀ s, Memory.read s.mem 20 = 0 → Memory.read s.mem 10 = 40 → Memory.read s.mem 11 = 1 →
      Stores (decode (encodeFields 12 20 10 11)) s 0 20)

/-- R103, the shift law: the floor of the value by the power of two of the whole amount, never above the value, bits shifted out
discarded. -/
def Obligations.ShiftLaw : Prop :=
  (∀ v n : Nat, shiftRight v n = v / 2 ^ n ∧ shiftRight v n ≤ v) ∧ shiftRight 41 1 = 20 ∧ shiftRight 40 1 = 20

/-- 43_shift_store section on corner cases (marked as derived there): an amount of 14 or more gives 0 for every value a cell can
hold, with no reduction of the amount by a width; amount 0 copies. -/
def Obligations.ShiftCornerCases : Prop :=
  (∀ v n : Nat, v ≤ 16383 → 14 ≤ n → shiftRight v n = 0) ∧
  (∀ v : Nat, shiftRight v 0 = v) ∧ (∀ n : Nat, shiftRight 0 n = 0) ∧
  shiftRight 16383 13 = 1 ∧ shiftRight 16383 3 = 2047 ∧ shiftRight 1 1 = 0

/-- R110 and R111. Each of the twelve undefined opcode values, whatever its fields, answers the state with the cursor one further
and nothing else changed, so all twelve behave identically; the same from their words, the examples included; a program of zero
bytes is a program of no-ops. -/
def Obligations.UndefinedIsNoOp : Prop :=
  (∀ mk ∈ [Instr.undefined0, Instr.undefined1, Instr.undefined2, Instr.undefined3, Instr.undefined4, Instr.undefined5,
      Instr.undefined6, Instr.undefined7, Instr.undefined9, Instr.undefined10, Instr.undefined11, Instr.undefined13],
    ∀ (b : FieldB) (c : FieldC) (d : FieldD) (s : State), exec (mk b c d) s = .next { s with pc := s.pc + 1 }) ∧
  (∀ (w : Word) (s : State), wordA w ∈ ([0, 1, 2, 3, 4, 5, 6, 7, 9, 10, 11, 13] : List Opcode) →
    exec (decode w) s = .next { s with pc := s.pc + 1 }) ∧
  (encodeFields 9 5 42 0 = 0x000000002A000059 ∧
    bytesLe (encodeFields 9 5 42 0) = [0x59, 0x00, 0x00, 0x2A, 0x00, 0x00, 0x00, 0x00]) ∧
  decode 0x003FFFFFFFFFFFFD = .undefined13 1048575 16383 65535 ∧
  decodeBytes [0, 0, 0, 0, 0, 0, 0, 0] = .instr (.undefined0 0 0 0) [] ∧
  (∀ s : State, s.status = .running → s.pc < s.prog.length / 8 → (∀ y ∈ s.prog, y = 0) →
    step s = .next { s with pc := s.pc + 1 })

/-- 30_encoding section 5, the unused fields: D for opcodes 15, 14 and 8. -/
def Obligations.UnusedFieldsIgnored : Prop :=
  ∀ (b : FieldB) (c : FieldC) (d d' : FieldD) (s : State),
    exec (.immediateStore b c d) s = exec (.immediateStore b c d') s ∧
    exec (.indirectLoad b c d) s = exec (.indirectLoad b c d') s ∧
    exec (.indirectStore b c d) s = exec (.indirectStore b c d') s

/-- 42 sections 1 and 2, the tables of aliasing cases (marked as derived there): the pointer is consumed, the self-pointing cell,
the pointer to the operand, equal operands. -/
def Obligations.IndirectAliasing : Prop :=
  (∀ (b : FieldB) (c : FieldC) (d : FieldD) (s : State),
    b.toNat = c.toNat → c.toNat ≤ 1023 → Memory.read s.mem c.toNat ≤ 1023 →
    Stores (.indirectLoad b c d) s c.toNat (Memory.read s.mem (Memory.read s.mem c.toNat))) ∧
  (∀ (b : FieldB) (c : FieldC) (d : FieldD) (s : State),
    Memory.read s.mem c.toNat = c.toNat → c.toNat ≤ 1023 → b.toNat ≤ 1023 →
    Stores (.indirectLoad b c d) s b.toNat c.toNat) ∧
  (∀ (b : FieldB) (c : FieldC) (d : FieldD) (s : State),
    Memory.read s.mem c.toNat = b.toNat → c.toNat ≤ 1023 → b.toNat ≤ 1023 →
    ∃ t, exec (.indirectLoad b c d) s = .next t ∧ ∀ x, Memory.read t.mem x = Memory.read s.mem x) ∧
  (∀ (b : FieldB) (c : FieldC) (d : FieldD) (s : State),
    Memory.read s.mem c.toNat = c.toNat → c.toNat ≤ 1023 → b.toNat ≤ 1023 →
    Stores (.indirectStore b c d) s c.toNat (Memory.read s.mem b.toNat)) ∧
  (∀ (b : FieldB) (c : FieldC) (d : FieldD) (s : State),
    Memory.read s.mem c.toNat = b.toNat → c.toNat ≤ 1023 → b.toNat ≤ 1023 →
    ∃ t, exec (.indirectStore b c d) s = .next t ∧ ∀ x, Memory.read t.mem x = Memory.read s.mem x) ∧
  (∀ (b : FieldB) (c : FieldC) (d : FieldD) (s : State),
    b.toNat = c.toNat → c.toNat ≤ 1023 → Memory.read s.mem c.toNat ≤ 1023 →
    Stores (.indirectStore b c d) s (Memory.read s.mem c.toNat) (Memory.read s.mem c.toNat))

/-- 43_shift_store, the table of aliasing cases (marked as derived there). In each the reads see the memory before the step. -/
def Obligations.ShiftAliasing : Prop :=
  (∀ (b : FieldB) (c : FieldC) (d : FieldD) (s : State),
    c.toNat ≤ 1023 → d.toNat ≤ 1023 → b.toNat ≤ 1023 → Memory.read s.mem b.toNat ≤ 1023 →
    let v := Memory.read s.mem c.toNat
    let n := Memory.read s.mem d.toNat
    let t := Memory.read s.mem b.toNat
    (c.toNat = d.toNat → Stores (.shiftStore b c d) s t 0) ∧
    (t = c.toNat → Stores (.shiftStore b c d) s c.toNat (v / 2 ^ n)) ∧
    (t = d.toNat → Stores (.shiftStore b c d) s d.toNat (v / 2 ^ n)) ∧
    (t = b.toNat → Stores (.shiftStore b c d) s b.toNat (v / 2 ^ n)) ∧
    (b.toNat = c.toNat → Stores (.shiftStore b c d) s t (t / 2 ^ n)) ∧
    (b.toNat = d.toNat → Stores (.shiftStore b c d) s t (v / 2 ^ t)) ∧
    (b.toNat = c.toNat → b.toNat = d.toNat → Stores (.shiftStore b c d) s t 0))

/-! ### All instructions, all steps -/

/-- 20_memory section 5, the write column: whatever the instruction and the state, the only cell that can change is the one the
table names, computed from the memory before the step, and a faulting instruction changes none; nothing outside the three
components of the state changes. -/
def Obligations.OnlyTheStoredCellChanges : Prop :=
  ∀ (i : Instr) (s t : State), exec i s = .next t →
    t.prog = s.prog ∧
    (∀ x, cellStored i s.mem ≠ some x → Memory.read t.mem x = Memory.read s.mem x) ∧
    (faultOf i s.mem ≠ none → t.mem = s.mem)

/-- 20_memory section 5, the read column: two states with the same cursor, status and program that agree on the cells the table
lists as read give outcomes that agree on everything but the cells not stored to: the same fault or none, the same cursor, the
same cell stored to, and the same value in it. -/
def Obligations.OnlyTheReadCellsMatter : Prop :=
  ∀ (i : Instr) (s s' t t' : State), s.pc = s'.pc → s.status = s'.status → s.prog = s'.prog →
    (∀ x ∈ cellsRead i s.mem, Memory.read s.mem x = Memory.read s'.mem x) →
    exec i s = .next t → exec i s' = .next t' →
    t.pc = t'.pc ∧ t.status = t'.status ∧ t.prog = t'.prog ∧ cellStored i s.mem = cellStored i s'.mem ∧
    (faultOf i s.mem = none → ∀ x, cellStored i s.mem = some x → Memory.read t.mem x = Memory.read t'.mem x)

/-- 20_memory section 7 (with the side effects of section 5, marked as derived there): a cell keeps its value, through any number of
transitions, until an instruction that does not fault stores to it. -/
def Obligations.CellKeepsValueUntilStored : Prop :=
  ∀ (n : Nat) (s : State) (x : Nat),
    (∀ k, k < n →
      let u := transitions k s
      ¬ (u.status = .running ∧ u.pc < u.prog.length / 8 ∧ faultOf (decode (wordAt u.prog u.pc)) u.mem = none ∧
        cellStored (decode (wordAt u.prog u.pc)) u.mem = some x)) →
    Memory.read (transitions n s).mem x = Memory.read s.mem x

/-- 20_memory sections 1 and 7: no step changes the program, so no store is ever seen by a fetch. -/
def Obligations.StepKeepsProgram : Prop :=
  ∀ s t : State, step s = .next t → t.prog = s.prog ∧ ∀ k, wordAt t.prog k = wordAt s.prog k

/-- THE MODEL'S CHOICE, log 4 (DESIGN CHOICE): the canonical form (addresses strictly rising, no entry holding 0) and that a read
above address 1023 gives 0 belong to the model's representation of the memory, not to the spec. The spec's part is that there is no
cell above 1023 and that the length never changes (10_state section 2), which the form expresses by listing no such cell. Every
step keeps the form, and in it no address above 1023 reads as anything but 0. -/
def Obligations.StepKeepsMemoryCanonical : Prop :=
  (∀ s t : State, Memory.wf s.mem = true → step s = .next t → Memory.wf t.mem = true) ∧
  (∀ m : Memory, Memory.wf m = true → ∀ a, 1023 < a → Memory.read m a = 0)

/-- 10_state section 2, the value invariant (marked as derived there), for every admissible `CELL_BITS`: if every cell fits
`CELL_BITS >= 14` bits, it does so after every step. So no width from 14 up can be observed. -/
def Obligations.StepKeepsCellsInWidth : Prop :=
  ∀ (cellBits : Nat) (s t : State), 14 ≤ cellBits → CellsBelow (2 ^ cellBits) s.mem → step s = .next t →
    CellsBelow (2 ^ cellBits) t.mem

/-- Every step keeps the machine's invariant: memory form, cell values, the cursor's bound, the cursor at the end of a run, and a
fault record that describes the first failing check of the word at the cursor. The clause on the memory form, `Inv.canonical`, is
THE MODEL'S CHOICE, log 4 (DESIGN CHOICE); the other clauses rest on 10_state section 2, 40_run_loop section 4 and 60_exceptions
section 2. -/
def Obligations.StepKeepsInv : Prop :=
  ∀ s t : State, Inv s → step s = .next t → Inv t

/-- The invariant holds after reset, with no program and with any program presented (10_state section 6, 70_reset section 1). Two
things in it are THE MODEL'S CHOICE: the clause `Inv.canonical` on the memory form, log 4 (DESIGN CHOICE), and that `State.reset`
holds the empty program, log 1 (DESIGN CHOICE). -/
def Obligations.ResetMeetsInv : Prop :=
  Inv State.reset ∧ ∀ (s : State) (p : List Byte), Inv (s.startRun p)

/-! ### Whole runs -/

/-- R82. A run is the fold of the step over the words of the program from the reset state, stopping at the first word that faults:
if none does, it finishes with the cursor at the number of words and the status `Ended`; if one does, in the state its step
left. -/
def Obligations.RunIsFold : Prop :=
  ∀ p : List Byte,
    let t := foldSteps (wordsOf p) (State.reset.startRun p)
    (t.status = .running → t.pc = p.length / 8 ∧ runProgram p = { t with status := .ended }) ∧
    (t.status ≠ .running → runProgram p = t ∧ t.pc < p.length / 8 ∧ ∃ info, t.status = .faulted info ∧ info.index = t.pc)

/-- R77. No instruction reads or writes the cursor except by the advance; so as long as a run has not faulted, after `k` steps the
cursor is at `k` and the word run next is word `k`, each word once and in order; and every run stops, after at most `N` steps
and the end of the run. -/
def Obligations.RunTerminates : Prop :=
  (∀ (i : Instr) (s : State) (k : Nat), faultOf i s.mem = none → ∃ t,
    exec i s = .next t ∧ t.pc = s.pc + 1 ∧ exec i { s with pc := k } = .next { t with pc := k + 1 }) ∧
  (∀ (p : List Byte) (k : Nat), k ≤ p.length / 8 →
    let t := transitions k (State.reset.startRun p)
    (∀ info, t.status ≠ .faulted info) →
    t.status = .running ∧ t.pc = k ∧ (k < p.length / 8 → step t = exec (decode (wordAt p k)) t)) ∧
  (∀ p : List Byte, (runProgram p).status ≠ .running ∧ ∀ t, step (runProgram p) ≠ .next t)

/-- R80. Trailing bytes are never run: a program and the same program without its last `L mod 8` bytes, and so any two programs that
differ in those bytes only, go through the same memory, cursor and status in every number of transitions; and the partial word
ends the run. -/
def Obligations.TrailingBytesIgnored : Prop :=
  (∀ (p y z : List Byte) (n : Nat), p.length % 8 = 0 → y.length < 8 → z.length < 8 →
    let t := transitions n (State.reset.startRun (p ++ y))
    let u := transitions n (State.reset.startRun (p ++ z))
    t.mem = u.mem ∧ t.pc = u.pc ∧ t.status = u.status) ∧
  (∀ (p y : List Byte) (s : State), p.length % 8 = 0 → y.length < 8 → s.prog = p ++ y → s.status = .running →
    s.pc = p.length / 8 → step s = .next { s with status := .ended })

/-- 40_run_loop section 4, empty and short programs (marked as derived there): with fewer than 8 bytes the run ends at once, with
cursor 0 and every cell 0. -/
def Obligations.ShortProgramEndsAtOnce : Prop :=
  ∀ p : List Byte, p.length < 8 → runProgram p = { State.reset with prog := p, status := .ended }

/-! ### Result extraction -/

/-- R84. After the run has ended, the read-out of an inclusive range of the memory has one pair for each address of the range, in
ascending order, with the value of the final memory. -/
def Obligations.ExtractionGivesTheRange : Prop :=
  ∀ (s : State) (first last : Nat), s.status = .ended → first ≤ last → last ≤ 1023 →
    ∃ l, s.extract first last = .records l ∧ l.length = last - first + 1 ∧
      ∀ k (h : k < l.length), l[k] = (first + k, Memory.read s.mem (first + k))

/-- R85. A range that reaches beyond cell 1023, or whose start is above its end, gives no records in any state, and after the end
of a run it is reported as invalid. -/
def Obligations.ExtractionRefusesBadRange : Prop :=
  ∀ (s : State) (first last : Nat), 1023 < last ∨ last < first →
    (∀ l, s.extract first last ≠ .records l) ∧ (s.status = .ended → s.extract first last = .invalidRange)

/-- R86. While a run goes on, and after a fault, there are no records. -/
def Obligations.ExtractionNeedsTheEnd : Prop :=
  ∀ (s : State) (first last : Nat) (l : List (Nat × Nat)), s.status ≠ .ended → s.extract first last ≠ .records l
end

