-- ==== Sys2Proof/Laws/Decode.lean ====
section
/-! SUPPORT. The fields of a word as numbers, and when a byte string holds an instruction. -/

namespace Sys2Proof

theorem wordA_toNat (w : Word) : (wordA w).toNat = w.toNat % 16 := by
  simp [wordA]

theorem wordB_toNat (w : Word) : (wordB w).toNat = w.toNat / 16 % 1048576 := by
  simp [wordB, Nat.shiftRight_eq_div_pow]

theorem wordC_toNat (w : Word) : (wordC w).toNat = w.toNat / 16777216 % 16384 := by
  simp [wordC, Nat.shiftRight_eq_div_pow]

theorem wordD_toNat (w : Word) : (wordD w).toNat = w.toNat / 274877906944 % 65536 := by
  simp [wordD, Nat.shiftRight_eq_div_pow]

theorem byteOf_toNat (w : Word) (i : Nat) : (byteOf w i).toNat = w.toNat / 2 ^ (8 * i) % 256 := by
  simp [byteOf, Nat.shiftRight_eq_div_pow]

theorem wordLe_toNat (y0 y1 y2 y3 y4 y5 y6 y7 : Byte) :
    (wordLe y0 y1 y2 y3 y4 y5 y6 y7).toNat =
      y0.toNat + 2 ^ 8 * y1.toNat + 2 ^ 16 * y2.toNat + 2 ^ 24 * y3.toNat
        + 2 ^ 32 * y4.toNat + 2 ^ 40 * y5.toNat + 2 ^ 48 * y6.toNat + 2 ^ 56 * y7.toNat := by
  have := y0.isLt; have := y1.isLt; have := y2.isLt; have := y3.isLt
  have := y4.isLt; have := y5.isLt; have := y6.isLt; have := y7.isLt
  unfold wordLe
  rw [BitVec.toNat_ofNat, Nat.mod_eq_of_lt]
  omega

/-- The classes of the sixteen opcode values. -/
theorem instrOf_opcode (i : Instr) (b : FieldB) (c : FieldC) (d : FieldD) :
    (instrOf (BitVec.ofNat 4 i.fields.a) b c d).fields.a = i.fields.a := by
  cases i <;> rfl

/-- Every instruction is within the field ranges: its fields have their widths by construction. -/
theorem Instr.wellFormed_all (i : Instr) : i.WellFormed := by
  cases i <;> rename_i b c d <;>
    exact ⟨by simp [Instr.fields], Nat.le_of_lt_succ b.isLt, Nat.le_of_lt_succ c.isLt, Nat.le_of_lt_succ d.isLt⟩

end Sys2Proof
end

