-- ==== Sys2Proof/Laws/Memory.lean ====
section
/-! SUPPORT. The laws of the data memory: what a read gives after an operation, and that every operation keeps the canonical form. -/

namespace Sys2Proof.Machine

@[simp] theorem Memory.read_nil (a : Nat) : Memory.read [] a = 0 := rfl

theorem Memory.read_cons (k v : Nat) (m : Memory) (a : Nat) :
    Memory.read ((k, v) :: m) a = if k = a then v else Memory.read m a := rfl

theorem Memory.read_erase_self (m : Memory) (a : Nat) : Memory.read (Memory.erase m a) a = 0 := by
  induction m with
  | nil => rfl
  | cons p m ih =>
    simp only [Memory.erase]
    split
    · exact ih
    · rw [Memory.read_cons, if_neg ‹_›, ih]

theorem Memory.read_erase_ne (m : Memory) (a x : Nat) (h : x ≠ a) :
    Memory.read (Memory.erase m a) x = Memory.read m x := by
  induction m with
  | nil => rfl
  | cons p m ih =>
    simp only [Memory.erase]
    split
    · rw [ih, Memory.read_cons, if_neg (by omega)]
    · rw [Memory.read_cons, Memory.read_cons, ih]

theorem Memory.key_ne_of_mem_erase (m : Memory) (a : Nat) : ∀ p ∈ Memory.erase m a, p.1 ≠ a := by
  induction m with
  | nil => simp [Memory.erase]
  | cons q m ih =>
    simp only [Memory.erase]
    split
    · exact ih
    · intro p hp
      rcases List.mem_cons.1 hp with rfl | hp
      · assumption
      · exact ih p hp

theorem Memory.read_insert_self (m : Memory) (a v : Nat) (h : ∀ p ∈ m, p.1 ≠ a) :
    Memory.read (Memory.insert m a v) a = v := by
  induction m with
  | nil => simp [Memory.insert, Memory.read_cons]
  | cons q m ih =>
    simp only [Memory.insert]
    split
    · rw [Memory.read_cons, if_pos rfl]
    · rw [Memory.read_cons, if_neg (h q (by simp)), ih fun p hp => h p (by simp [hp])]

theorem Memory.read_insert_ne (m : Memory) (a v x : Nat) (h : x ≠ a) :
    Memory.read (Memory.insert m a v) x = Memory.read m x := by
  induction m with
  | nil => simp [Memory.insert, Memory.read_cons, h.symm]
  | cons q m ih =>
    simp only [Memory.insert]
    split
    · rw [Memory.read_cons, if_neg h.symm]
    · rw [Memory.read_cons, Memory.read_cons, ih]

/-- A write changes the cell written and no other, in every memory, canonical or not. -/
theorem Memory.read_write (m : Memory) (a v x : Nat) :
    Memory.read (Memory.write m a v) x = if x = a then v else Memory.read m x := by
  unfold Memory.write
  split <;> rename_i hv
  · subst hv
    split <;> rename_i hx
    · subst hx; exact Memory.read_erase_self m x
    · exact Memory.read_erase_ne m a x hx
  · split <;> rename_i hx
    · subst hx; exact Memory.read_insert_self _ x v (Memory.key_ne_of_mem_erase m x)
    · rw [Memory.read_insert_ne _ a v x hx, Memory.read_erase_ne m a x hx]

theorem Memory.erase_of_key_ne (m : Memory) (a : Nat) (h : ∀ p ∈ m, p.1 ≠ a) : Memory.erase m a = m := by
  induction m with
  | nil => rfl
  | cons q m ih =>
    simp only [Memory.erase]
    rw [if_neg (h q (by simp)), ih fun p hp => h p (by simp [hp])]

theorem Memory.erase_insert (m : Memory) (a v : Nat) (h : ∀ p ∈ m, p.1 ≠ a) :
    Memory.erase (Memory.insert m a v) a = m := by
  induction m with
  | nil => simp [Memory.insert, Memory.erase]
  | cons q m ih =>
    have hm : ∀ p ∈ m, p.1 ≠ a := fun p hp => h p (by simp [hp])
    have hq : q.1 ≠ a := h q (by simp)
    simp only [Memory.insert]
    split
    · rw [Memory.erase, if_pos rfl]
      exact Memory.erase_of_key_ne _ a h
    · rw [Memory.erase, if_neg hq, ih hm]

/-- Writing the same value twice is writing it once. -/
theorem Memory.write_write (m : Memory) (a v : Nat) :
    Memory.write (Memory.write m a v) a v = Memory.write m a v := by
  have hk := Memory.key_ne_of_mem_erase m a
  unfold Memory.write
  split
  · exact Memory.erase_of_key_ne _ a hk
  · rw [Memory.erase_insert _ a v hk]

theorem Memory.wfFrom_cons (lo k v : Nat) (m : Memory) :
    Memory.wfFrom lo ((k, v) :: m) = true ↔ lo ≤ k ∧ k < 1024 ∧ v ≠ 0 ∧ Memory.wfFrom (k + 1) m = true := by
  simp only [Memory.wfFrom, Bool.and_eq_true, decide_eq_true_eq, and_assoc]
  exact Iff.rfl

theorem Memory.wfFrom_mono (m : Memory) (lo lo' : Nat) (h : lo' ≤ lo) (hm : Memory.wfFrom lo m = true) :
    Memory.wfFrom lo' m = true := by
  cases m with
  | nil => rfl
  | cons p m =>
    obtain ⟨k, v⟩ := p
    rw [Memory.wfFrom_cons] at hm ⊢
    exact ⟨by omega, hm.2⟩

theorem Memory.wfFrom_erase (m : Memory) (lo a : Nat) (hm : Memory.wfFrom lo m = true) :
    Memory.wfFrom lo (Memory.erase m a) = true := by
  induction m generalizing lo with
  | nil => rfl
  | cons p m ih =>
    obtain ⟨k, v⟩ := p
    rw [Memory.wfFrom_cons] at hm
    simp only [Memory.erase]
    split
    · exact Memory.wfFrom_mono _ (k + 1) lo (by omega) (ih (k + 1) hm.2.2.2)
    · rw [Memory.wfFrom_cons]
      exact ⟨hm.1, hm.2.1, hm.2.2.1, ih (k + 1) hm.2.2.2⟩

theorem Memory.wfFrom_insert (m : Memory) (lo a v : Nat) (hm : Memory.wfFrom lo m = true)
    (hk : ∀ p ∈ m, p.1 ≠ a) (hlo : lo ≤ a) (ha : a < 1024) (hv : v ≠ 0) :
    Memory.wfFrom lo (Memory.insert m a v) = true := by
  induction m generalizing lo with
  | nil => rw [Memory.insert, Memory.wfFrom_cons]; exact ⟨hlo, ha, hv, rfl⟩
  | cons p m ih =>
    obtain ⟨k, u⟩ := p
    have hka : k ≠ a := hk (k, u) (by simp)
    rw [Memory.wfFrom_cons] at hm
    simp only [Memory.insert]
    split
    · rw [Memory.wfFrom_cons, Memory.wfFrom_cons]
      exact ⟨hlo, ha, hv, by omega, hm.2⟩
    · rw [Memory.wfFrom_cons]
      exact ⟨hm.1, hm.2.1, hm.2.2.1,
        ih (k + 1) hm.2.2.2 (fun p hp => hk p (by simp [hp])) (by omega)⟩

@[simp] theorem Memory.wf_nil : Memory.wf [] = true := rfl

/-- Every write to a cell that exists keeps the canonical form. -/
theorem Memory.wf_write (m : Memory) (a v : Nat) (hm : Memory.wf m = true) (ha : a < 1024) :
    Memory.wf (Memory.write m a v) = true := by
  have he := Memory.wfFrom_erase m 0 a hm
  unfold Memory.write Memory.wf
  split
  · exact he
  · exact Memory.wfFrom_insert _ 0 a v he (Memory.key_ne_of_mem_erase m a) (Nat.zero_le a) ha ‹_›

/-- The memory after reset is in canonical form. -/
theorem Memory.wf_reset : Memory.wf State.reset.mem = true := rfl

end Sys2Proof.Machine
end

