-- ==== Sys2Proof/Laws/State.lean ====
section
/-! SUPPORT. One lemma per field per update of the state. -/

namespace Sys2Proof.Machine

@[simp] theorem memWrite_mem (s : State) (a v : Nat) : (s.memWrite a v).mem = Memory.write s.mem a v := rfl
@[simp] theorem memWrite_pc (s : State) (a v : Nat) : (s.memWrite a v).pc = s.pc := rfl
@[simp] theorem memWrite_status (s : State) (a v : Nat) : (s.memWrite a v).status = s.status := rfl
@[simp] theorem memWrite_prog (s : State) (a v : Nat) : (s.memWrite a v).prog = s.prog := rfl

@[simp] theorem advance_mem (s : State) : s.advance.mem = s.mem := rfl
@[simp] theorem advance_pc (s : State) : s.advance.pc = s.pc + 1 := rfl
@[simp] theorem advance_status (s : State) : s.advance.status = s.status := rfl
@[simp] theorem advance_prog (s : State) : s.advance.prog = s.prog := rfl

@[simp] theorem raiseOutOfBounds_mem (s : State) (a : Opcode) (r : Role) (n : Nat) :
    (s.raiseOutOfBounds a r n).mem = s.mem := rfl
@[simp] theorem raiseOutOfBounds_pc (s : State) (a : Opcode) (r : Role) (n : Nat) :
    (s.raiseOutOfBounds a r n).pc = s.pc := rfl
@[simp] theorem raiseOutOfBounds_status (s : State) (a : Opcode) (r : Role) (n : Nat) :
    (s.raiseOutOfBounds a r n).status = .faulted { index := s.pc, opcode := a, role := r, addr := n } := rfl
@[simp] theorem raiseOutOfBounds_prog (s : State) (a : Opcode) (r : Role) (n : Nat) :
    (s.raiseOutOfBounds a r n).prog = s.prog := rfl

@[simp] theorem endRun_mem (s : State) : s.endRun.mem = s.mem := rfl
@[simp] theorem endRun_pc (s : State) : s.endRun.pc = s.pc := rfl
@[simp] theorem endRun_status (s : State) : s.endRun.status = .ended := rfl
@[simp] theorem endRun_prog (s : State) : s.endRun.prog = s.prog := rfl

@[simp] theorem startRun_mem (s : State) (p : List Byte) : (s.startRun p).mem = [] := rfl
@[simp] theorem startRun_pc (s : State) (p : List Byte) : (s.startRun p).pc = 0 := rfl
@[simp] theorem startRun_status (s : State) (p : List Byte) : (s.startRun p).status = .running := rfl
@[simp] theorem startRun_prog (s : State) (p : List Byte) : (s.startRun p).prog = p := rfl

@[simp] theorem reset_mem : State.reset.mem = [] := rfl
@[simp] theorem reset_pc : State.reset.pc = 0 := rfl
@[simp] theorem reset_status : State.reset.status = .running := rfl
@[simp] theorem reset_prog : State.reset.prog = [] := rfl

end Sys2Proof.Machine
end

