-- ==== Sys2Proof/Laws/Ops.lean ====
section
/-! SUPPORT. What each shared operation can do, said once. -/

namespace Sys2Proof.Machine

theorem check_inRange (a : Opcode) (r : Role) (n : Nat) (s : State) (k : Result) (h : n ≤ 1023) :
    check a r n s k = k := if_neg (Nat.not_lt.2 h)

theorem check_outOfRange (a : Opcode) (r : Role) (n : Nat) (s : State) (k : Result) (h : 1023 < n) :
    check a r n s k = .next (s.raiseOutOfBounds a r n) := if_pos h

/-- Everything a check can lead to: the fault, or the rest of the instruction. -/
theorem check_next {a : Opcode} {r : Role} {n : Nat} {s t : State} {k : Result} (h : check a r n s k = .next t) :
    (1023 < n ∧ t = s.raiseOutOfBounds a r n) ∨ (n ≤ 1023 ∧ k = .next t) := by
  by_cases hn : n ≤ 1023
  · rw [check_inRange a r n s k hn] at h
    exact .inr ⟨hn, h⟩
  · rw [check_outOfRange a r n s k (by omega)] at h
    injection h with h
    exact .inl ⟨by omega, h.symm⟩

theorem withCell_inRange (a : Opcode) (r : Role) (n : Nat) (s : State) (k : Nat → Result) (h : n ≤ 1023) :
    withCell a r n s k = k (Memory.read s.mem n) := check_inRange a r n s _ h

theorem withCell_outOfRange (a : Opcode) (r : Role) (n : Nat) (s : State) (k : Nat → Result) (h : 1023 < n) :
    withCell a r n s k = .next (s.raiseOutOfBounds a r n) := check_outOfRange a r n s _ h

/-- Everything reading an operand can lead to: the fault, or the rest of the instruction with the value read. -/
theorem withCell_next {a : Opcode} {r : Role} {n : Nat} {s t : State} {k : Nat → Result}
    (h : withCell a r n s k = .next t) :
    (1023 < n ∧ t = s.raiseOutOfBounds a r n) ∨ (n ≤ 1023 ∧ k (Memory.read s.mem n) = .next t) := check_next h

theorem storeCell_inRange (a : Opcode) (r : Role) (n v : Nat) (s : State) (h : n ≤ 1023) :
    storeCell a r n v s = .next (s.memWrite n v).advance := check_inRange a r n s _ h

theorem storeCell_outOfRange (a : Opcode) (r : Role) (n v : Nat) (s : State) (h : 1023 < n) :
    storeCell a r n v s = .next (s.raiseOutOfBounds a r n) := check_outOfRange a r n s _ h

/-- Everything storing a result can lead to: the fault, or the one write and the advance of the cursor. -/
theorem storeCell_next {a : Opcode} {r : Role} {n v : Nat} {s t : State} (h : storeCell a r n v s = .next t) :
    (1023 < n ∧ t = s.raiseOutOfBounds a r n) ∨ (n ≤ 1023 ∧ t = (s.memWrite n v).advance) := by
  rcases check_next h with h | ⟨hn, h⟩
  · exact .inl h
  · injection h with h
    exact .inr ⟨hn, h.symm⟩

/-- A step of a running state that fetches an instruction runs it on the same state. -/
theorem step_of_instr {s : State} {i : Instr} {rest : List Byte} (h : s.status = .running) (hf : s.fetch = .instr i rest) :
    step s = exec i s := by
  simp only [step, h, hf]

/-- A step of a running state with fewer than 8 bytes left ends the run. -/
theorem step_of_truncated {s : State} (h : s.status = .running) (hf : s.fetch = .truncatedInput) :
    step s = .next s.endRun := by
  simp only [step, h, hf]

/-- A step that answers a next state was taken while running, and ran the instruction fetched or ended the run. -/
theorem step_next {s t : State} (h : step s = .next t) :
    s.status = .running ∧
      ((∃ i rest, s.fetch = .instr i rest ∧ exec i s = .next t) ∨ (s.fetch = .truncatedInput ∧ t = s.endRun)) := by
  unfold step at h
  split at h <;> rename_i hs
  · refine ⟨hs, ?_⟩
    split at h <;> rename_i hf
    · exact .inl ⟨_, _, hf, h⟩
    · injection h with h
      exact .inr ⟨hf, h.symm⟩
  · cases h
  · cases h

end Sys2Proof.Machine
end

