-- ==== Sys2Proof/Laws/PerInstr.lean ====
section
/-! SUPPORT. Statements about instructions as syntax, one lemma a constructor. -/

/-- The operands of an instruction, as numbers, are within the field ranges (30_encoding R54). -/
def Sys2Proof.Laws.OperandsInRange.Statement (i : Sys2Proof.Instr) : Prop := i.WellFormed

/-- An instruction is the one its opcode value and operand fields select (30_encoding R56). -/
def Sys2Proof.Laws.FieldsSelect.Statement (i : Sys2Proof.Instr) : Prop :=
  Sys2Proof.instrOf (BitVec.ofNat 4 i.fields.a) (BitVec.ofNat 20 i.fields.b) (BitVec.ofNat 14 i.fields.c)
    (BitVec.ofNat 16 i.fields.d) = i

namespace Sys2Proof.Laws

theorem FieldsSelect.of_instrOf {a : Opcode} {mk : FieldB → FieldC → FieldD → Instr} (h : ∀ b c d, instrOf a b c d = mk b c d)
    (b : FieldB) (c : FieldC) (d : FieldD) :
    instrOf a (BitVec.ofNat 20 b.toNat) (BitVec.ofNat 14 c.toNat) (BitVec.ofNat 16 d.toNat) = mk b c d := by
  simp only [BitVec.ofNat_toNat, BitVec.setWidth_eq, h]

theorem OperandsInRange.undefined0 (b : FieldB) (c : FieldC) (d : FieldD) : OperandsInRange.Statement (.undefined0 b c d) :=
  Instr.wellFormed_all _
theorem FieldsSelect.undefined0 (b : FieldB) (c : FieldC) (d : FieldD) : FieldsSelect.Statement (.undefined0 b c d) :=
  FieldsSelect.of_instrOf (fun _ _ _ => rfl) b c d

theorem OperandsInRange.undefined1 (b : FieldB) (c : FieldC) (d : FieldD) : OperandsInRange.Statement (.undefined1 b c d) :=
  Instr.wellFormed_all _
theorem FieldsSelect.undefined1 (b : FieldB) (c : FieldC) (d : FieldD) : FieldsSelect.Statement (.undefined1 b c d) :=
  FieldsSelect.of_instrOf (fun _ _ _ => rfl) b c d

theorem OperandsInRange.undefined2 (b : FieldB) (c : FieldC) (d : FieldD) : OperandsInRange.Statement (.undefined2 b c d) :=
  Instr.wellFormed_all _
theorem FieldsSelect.undefined2 (b : FieldB) (c : FieldC) (d : FieldD) : FieldsSelect.Statement (.undefined2 b c d) :=
  FieldsSelect.of_instrOf (fun _ _ _ => rfl) b c d

theorem OperandsInRange.undefined3 (b : FieldB) (c : FieldC) (d : FieldD) : OperandsInRange.Statement (.undefined3 b c d) :=
  Instr.wellFormed_all _
theorem FieldsSelect.undefined3 (b : FieldB) (c : FieldC) (d : FieldD) : FieldsSelect.Statement (.undefined3 b c d) :=
  FieldsSelect.of_instrOf (fun _ _ _ => rfl) b c d

theorem OperandsInRange.undefined4 (b : FieldB) (c : FieldC) (d : FieldD) : OperandsInRange.Statement (.undefined4 b c d) :=
  Instr.wellFormed_all _
theorem FieldsSelect.undefined4 (b : FieldB) (c : FieldC) (d : FieldD) : FieldsSelect.Statement (.undefined4 b c d) :=
  FieldsSelect.of_instrOf (fun _ _ _ => rfl) b c d

theorem OperandsInRange.undefined5 (b : FieldB) (c : FieldC) (d : FieldD) : OperandsInRange.Statement (.undefined5 b c d) :=
  Instr.wellFormed_all _
theorem FieldsSelect.undefined5 (b : FieldB) (c : FieldC) (d : FieldD) : FieldsSelect.Statement (.undefined5 b c d) :=
  FieldsSelect.of_instrOf (fun _ _ _ => rfl) b c d

theorem OperandsInRange.undefined6 (b : FieldB) (c : FieldC) (d : FieldD) : OperandsInRange.Statement (.undefined6 b c d) :=
  Instr.wellFormed_all _
theorem FieldsSelect.undefined6 (b : FieldB) (c : FieldC) (d : FieldD) : FieldsSelect.Statement (.undefined6 b c d) :=
  FieldsSelect.of_instrOf (fun _ _ _ => rfl) b c d

theorem OperandsInRange.undefined7 (b : FieldB) (c : FieldC) (d : FieldD) : OperandsInRange.Statement (.undefined7 b c d) :=
  Instr.wellFormed_all _
theorem FieldsSelect.undefined7 (b : FieldB) (c : FieldC) (d : FieldD) : FieldsSelect.Statement (.undefined7 b c d) :=
  FieldsSelect.of_instrOf (fun _ _ _ => rfl) b c d

theorem OperandsInRange.indirectStore (b : FieldB) (c : FieldC) (d : FieldD) : OperandsInRange.Statement (.indirectStore b c d) :=
  Instr.wellFormed_all _
theorem FieldsSelect.indirectStore (b : FieldB) (c : FieldC) (d : FieldD) : FieldsSelect.Statement (.indirectStore b c d) :=
  FieldsSelect.of_instrOf (fun _ _ _ => rfl) b c d

theorem OperandsInRange.undefined9 (b : FieldB) (c : FieldC) (d : FieldD) : OperandsInRange.Statement (.undefined9 b c d) :=
  Instr.wellFormed_all _
theorem FieldsSelect.undefined9 (b : FieldB) (c : FieldC) (d : FieldD) : FieldsSelect.Statement (.undefined9 b c d) :=
  FieldsSelect.of_instrOf (fun _ _ _ => rfl) b c d

theorem OperandsInRange.undefined10 (b : FieldB) (c : FieldC) (d : FieldD) : OperandsInRange.Statement (.undefined10 b c d) :=
  Instr.wellFormed_all _
theorem FieldsSelect.undefined10 (b : FieldB) (c : FieldC) (d : FieldD) : FieldsSelect.Statement (.undefined10 b c d) :=
  FieldsSelect.of_instrOf (fun _ _ _ => rfl) b c d

theorem OperandsInRange.undefined11 (b : FieldB) (c : FieldC) (d : FieldD) : OperandsInRange.Statement (.undefined11 b c d) :=
  Instr.wellFormed_all _
theorem FieldsSelect.undefined11 (b : FieldB) (c : FieldC) (d : FieldD) : FieldsSelect.Statement (.undefined11 b c d) :=
  FieldsSelect.of_instrOf (fun _ _ _ => rfl) b c d

theorem OperandsInRange.shiftStore (b : FieldB) (c : FieldC) (d : FieldD) : OperandsInRange.Statement (.shiftStore b c d) :=
  Instr.wellFormed_all _
theorem FieldsSelect.shiftStore (b : FieldB) (c : FieldC) (d : FieldD) : FieldsSelect.Statement (.shiftStore b c d) :=
  FieldsSelect.of_instrOf (fun _ _ _ => rfl) b c d

theorem OperandsInRange.undefined13 (b : FieldB) (c : FieldC) (d : FieldD) : OperandsInRange.Statement (.undefined13 b c d) :=
  Instr.wellFormed_all _
theorem FieldsSelect.undefined13 (b : FieldB) (c : FieldC) (d : FieldD) : FieldsSelect.Statement (.undefined13 b c d) :=
  FieldsSelect.of_instrOf (fun _ _ _ => rfl) b c d

theorem OperandsInRange.indirectLoad (b : FieldB) (c : FieldC) (d : FieldD) : OperandsInRange.Statement (.indirectLoad b c d) :=
  Instr.wellFormed_all _
theorem FieldsSelect.indirectLoad (b : FieldB) (c : FieldC) (d : FieldD) : FieldsSelect.Statement (.indirectLoad b c d) :=
  FieldsSelect.of_instrOf (fun _ _ _ => rfl) b c d

theorem OperandsInRange.immediateStore (b : FieldB) (c : FieldC) (d : FieldD) : OperandsInRange.Statement (.immediateStore b c d) :=
  Instr.wellFormed_all _
theorem FieldsSelect.immediateStore (b : FieldB) (c : FieldC) (d : FieldD) : FieldsSelect.Statement (.immediateStore b c d) :=
  FieldsSelect.of_instrOf (fun _ _ _ => rfl) b c d

end Sys2Proof.Laws
end

