-- ==== Sys2Proof/Tests/Slice0.lean ====
section
/-! SUPPORT. Tests: the refused ill-formed tuples, every constructor's decoding from a written-out word, the vectors of
95_test_vectors for each instruction, and for every statement that has hypotheses a state and operands that meet them. -/

namespace Sys2Proof.Tests

open Sys2Proof.Machine

/-- A running state with the given cells, cursor 0 and the given program. -/
def st (m : Memory) (p : List Byte) : State := { mem := m, pc := 0, status := .running, prog := p }

/-- The next state of an outcome, to compare. -/
def nextOf : Result → Option State
  | .next t => some t
  | .fault _ => none
  | .refused _ => none

/-- Memory, cursor and status after one step of the word `w` from the cells `m`. -/
def after (m : Memory) (w : Word) : Option (Memory × Nat × Status) :=
  (nextOf (step (st m (bytesLe w)))).map fun t => (t.mem, t.pc, t.status)

/-- The fault record at index 0. -/
def faultedAt0 (a : Opcode) (r : Role) (n : Nat) : Status := .faulted { index := 0, opcode := a, role := r, addr := n }

/-! ### Well-formedness: each check refuses a tuple one above its range (30_encoding R40) -/

theorem test_wf_accepts : (⟨15, 1048575, 16383, 65535⟩ : Fields).WellFormed := by decide
theorem test_wf_refuses_a : ¬ (⟨16, 0, 0, 0⟩ : Fields).WellFormed := by decide
theorem test_wf_refuses_b : ¬ (⟨0, 1048576, 0, 0⟩ : Fields).WellFormed := by decide
theorem test_wf_refuses_c : ¬ (⟨0, 0, 16384, 0⟩ : Fields).WellFormed := by decide
theorem test_wf_refuses_d : ¬ (⟨0, 0, 0, 65536⟩ : Fields).WellFormed := by decide

/-! ### Decoding, words from 95_test_vectors (S3 to S6, V-UN-2, V-ENC-4, V-DEC-1, V-DEC-2) -/

theorem test_decode_immediateStore : decode 0x003FFFC02A00005F = .immediateStore 5 42 65535 := by decide
theorem test_decode_indirectLoad : decode 0x000000000700000E = .indirectLoad 0 7 0 := by decide
theorem test_decode_indirectStore : decode 0x0000000007000038 = .indirectStore 3 7 0 := by decide
theorem test_decode_shiftStore : decode 0x000002C00A00014C = .shiftStore 20 10 11 := by decide
theorem test_decode_undefined_low :
    decode 0x003FFFFFFFFFFFF0 = .undefined0 1048575 16383 65535 ∧ decode 0x003FFFFFFFFFFFF1 = .undefined1 1048575 16383 65535 ∧
    decode 0x003FFFFFFFFFFFF2 = .undefined2 1048575 16383 65535 ∧ decode 0x003FFFFFFFFFFFF3 = .undefined3 1048575 16383 65535 ∧
    decode 0x003FFFFFFFFFFFF4 = .undefined4 1048575 16383 65535 ∧ decode 0x003FFFFFFFFFFFF5 = .undefined5 1048575 16383 65535 ∧
    decode 0x003FFFFFFFFFFFF6 = .undefined6 1048575 16383 65535 ∧ decode 0x003FFFFFFFFFFFF7 = .undefined7 1048575 16383 65535 := by
  decide
theorem test_decode_undefined_high :
    decode 0x003FFFFFFFFFFFF9 = .undefined9 1048575 16383 65535 ∧ decode 0x003FFFFFFFFFFFFA = .undefined10 1048575 16383 65535 ∧
    decode 0x003FFFFFFFFFFFFB = .undefined11 1048575 16383 65535 ∧ decode 0x003FFFFFFFFFFFFD = .undefined13 1048575 16383 65535 := by
  decide
theorem test_decode_fields_apart : decode 0x000000C002000019 = .undefined9 1 2 3 := by decide
theorem test_decode_unused_bits : decode 0xFFC000002A00005F = .immediateStore 5 42 0 := by decide
theorem test_decode_bytes :
    decodeBytes [0x4C, 0x01, 0x00, 0x0A, 0xC0, 0x02, 0x00, 0x00, 0xAA] = .instr (.shiftStore 20 10 11) [0xAA] := by decide
theorem test_decode_truncated : decodeBytes [0x5F, 0, 0, 0x2A, 0, 0, 0] = .truncatedInput := by decide

/-! ### Encoding (S1, S2, V-ENC-1 to V-ENC-5) -/

theorem test_encode_units :
    encodeFields 1 0 0 0 = 0x1 ∧ encodeFields 0 1 0 0 = 0x10 ∧ encodeFields 0 0 1 0 = 0x1000000 ∧
    encodeFields 0 0 0 1 = 0x4000000000 := by decide
theorem test_encode_truncates :
    encodeFields 255 0 0 0 = 0xF ∧ encodeFields 0 1048576 0 0 = 0 ∧ encodeFields 0 0 16384 0 = 0 ∧
    encodeFields 0 0 0 65536 = 0 := by decide
theorem test_encode_bytes :
    encodeBytes (.immediateStore 1048575 16383 65535) = [0xFF, 0xFF, 0xFF, 0xFF, 0xFF, 0xFF, 0x3F, 0x00] := by decide
theorem test_encoder_omits_d : (encBlock ⟨15, 5, 42, 9, false⟩).wordOut = 0x000000002A00005F := by decide
theorem test_table_word : decodeTableWord 64 12 = some (.shiftStore 0 0 0) ∧ decodeTableWord 8 14 = some (.indirectLoad 0 0 0) := by
  decide

/-! ### One step of each instruction -/

/-- V-IS-1 -/
theorem test_immediateStore_last_cell : after [] 0x0000003FFF003FFF = some ([(1023, 16383)], 1, .running) := by decide
/-- V-IS-5 -/
theorem test_immediateStore_faults : after [] 0x000000000000400F = some ([], 0, faultedAt0 15 .bDirect 1024) := by decide
/-- V-IL-3 -/
theorem test_indirectLoad_over_pointer : after [(5, 42), (7, 5)] 0x000000000700007E = some ([(5, 42), (7, 42)], 1, .running) := by decide
/-- V-IL-9 -/
theorem test_indirectLoad_checks_c_first : after [] 0x003FFFFFFFFFFFFE = some ([], 0, faultedAt0 14 .cDirect 16383) := by decide
/-- V-IST-3 -/
theorem test_indirectStore_self_pointer : after [(3, 42), (7, 7)] 0x0000000007000038 = some ([(3, 42), (7, 42)], 1, .running) := by
  decide
/-- V-IST-5 -/
theorem test_indirectStore_pointer_faults : after [(1, 5000)] 0x0000000001000008 = some ([(1, 5000)], 0, faultedAt0 8 .ptrViaC 5000) := by
  decide
/-- V-SH-12 -/
theorem test_shiftStore_pointer_is_amount :
    after [(0, 16383), (2, 13), (13, 5)] 0x000000800000002C = some ([(0, 16383), (2, 13), (13, 1)], 1, .running) := by decide
/-- V-SH-8 -/
theorem test_shiftStore_amount_64 :
    after [(0, 16383), (1, 64), (2, 10)] 0x000000400000002C = some ([(0, 16383), (1, 64), (2, 10)], 1, .running) := by decide
/-- V-UN-1 -/
theorem test_undefined9 : after [(5, 1)] 0x000000002A000059 = some ([(5, 1)], 1, .running) := by decide
/-- V-UN-2 -/
theorem test_undefined_others : ∀ n ∈ [0, 1, 2, 3, 4, 5, 6, 7, 10, 11, 13],
    after [(5, 1)] (BitVec.ofNat 64 (0x003FFFFFFFFFFFF0 + n)) = some ([(5, 1)], 1, .running) := by decide

/-! ### The run loop and the read-out -/

/-- V-RL-2, its last transition -/
theorem test_partial_word_ends : (nextOf (step (st [] [0x5F, 0, 0, 0x2A, 0, 0, 0]))).map State.status = some .ended := by decide
/-- R72 -/
theorem test_ended_stays : nextOf (step { st [] [] with status := .ended }) = none := by decide
/-- The host's hook places the word at the cursor. -/
theorem test_withFetchWord :
    nextOf (step (State.reset.withFetchWord 64 0x2A00005F)) =
      nextOf (exec (.immediateStore 5 42 0) (State.reset.withFetchWord 64 0x2A00005F)) ∧
    ({ st [] [1] with pc := 1 } : State).withFetchWord 8 9 = { st [] [1, 0, 0, 0, 0, 0, 0, 0, 9, 0, 0, 0, 0, 0, 0, 0] with pc := 1 } := by
  decide
/-- V-RX-1, V-RX-4, V-RX-5 -/
theorem test_extract :
    ({ st [(0, 7), (1, 8)] [] with status := .ended } : State).extract 0 1 = .records [(0, 7), (1, 8)] ∧
    ({ st [] [] with status := .ended } : State).extract 1000 1024 = .invalidRange ∧
    ({ st [] [] with status := .ended } : State).extract 3 2 = .invalidRange ∧
    (st [] []).extract 0 3 = .noResult := by decide

/-! ### Witnesses: for every statement with hypotheses, what meets them -/

theorem test_wit_FieldRoundTrip : (⟨15, 1048575, 16383, 65535⟩ : Fields).WellFormed ∧ (⟨0, 0, 0, 0⟩ : Fields).WellFormed := by decide
theorem test_wit_OpcodeMap : ∀ n ∈ List.range 16, wordA (BitVec.ofNat 64 (0xFFFFFFFFFFFFFFF0 + n)) = BitVec.ofNat 4 n := by decide
theorem test_wit_DispatchClasses :
    classify 0 = .undefined 0 ∧ classify 13 = .undefined 13 ∧ decode 0x2A00005F = .immediateStore 5 42 0 := by decide
theorem test_wit_DecoderTotalOnEightBytes :
    8 ≤ (bytesLe 0).length ∧ ([0, 0, 0, 0, 0, 0, 0] : List Byte).length < 8 ∧
    (0xFFC000002A00005F : Word).toNat % 2 ^ 54 = (0x2A00005F : Word).toNat % 2 ^ 54 := by decide
theorem test_wit_EveryWordRuns_and_UndefinedIsNoOp :
    wordA 0x003FFFFFFFFFFFFD ∈ ([0, 1, 2, 3, 4, 5, 6, 7, 9, 10, 11, 13] : List Opcode) ∧
    (st [] [0, 0, 0, 0, 0, 0, 0, 0]).status = .running ∧
    (st [] [0, 0, 0, 0, 0, 0, 0, 0]).pc < (st [] [0, 0, 0, 0, 0, 0, 0, 0]).prog.length / 8 ∧
    ∀ y ∈ (st [] [0, 0, 0, 0, 0, 0, 0, 0]).prog, y = 0 := by decide
theorem test_wit_UndefinedIsNoOp_constructors :
    Instr.undefined0 ∈ [Instr.undefined0, Instr.undefined1, Instr.undefined2, Instr.undefined3, Instr.undefined4, Instr.undefined5,
      Instr.undefined6, Instr.undefined7, Instr.undefined9, Instr.undefined10, Instr.undefined11, Instr.undefined13] :=
  List.mem_cons_self
theorem test_wit_BinaryProgramWords : 1 < [(⟨15, 0, 7, 0, false⟩ : EncoderInput), ⟨15, 1, 8, 0, false⟩].length := by decide
theorem test_wit_StepRunsDecodedInstr :
    (st [] (bytesLe 0x2A00005F)).status = .running ∧
    decodeBytes ((st [] (bytesLe 0x2A00005F)).prog.drop 0) = .instr (.immediateStore 5 42 0) [] ∧
    decodeBytes ((st [] [1]).prog.drop 0) = .truncatedInput := by decide
/-- the last word of a program (StepRunsFetchedWord, EnabledTransitions), and the cursor at the number of words (EndOfRun) -/
theorem test_wit_fetch_and_end :
    ({ st [] (bytesLe 1 ++ bytesLe 2 ++ [3]) with pc := 1 } : State).pc < (bytesLe 1 ++ bytesLe 2 ++ [3]).length / 8 ∧
    (bytesLe 1 ++ bytesLe 2 ++ [3]).length / 8 ≤ ({ st [] (bytesLe 1 ++ bytesLe 2 ++ [3]) with pc := 2 } : State).pc ∧
    (runProgram (bytesLe 1)).status = .ended := by decide
/-- StatusTransitions, one step of each of its three kinds -/
theorem test_wit_StatusTransitions :
    (nextOf (step (st [] (bytesLe 9)))).map State.status = some .running ∧
    (nextOf (step (st [] []))).map State.status = some .ended ∧
    (nextOf (step (st [] (bytesLe 0x400F)))).map State.status = some (faultedAt0 15 .bDirect 1024) := by decide
theorem test_wit_FaultIsTerminal :
    ({ st [] [] with status := faultedAt0 15 .bDirect 1024 } : State).status = .faulted ⟨0, 15, .bDirect, 1024⟩ ∧
    (nextOf (exec (.undefined0 0 0 0) { st [] [] with status := faultedAt0 15 .bDirect 1024 })).isSome = true := by decide
/-- CursorAdvances and FirstFailingCheckDecides at the last cell and one above -/
theorem test_wit_faultOf_boundary :
    faultOf (.immediateStore 1023 0 0) [] = none ∧ faultOf (.immediateStore 1024 0 0) [] = some (.bDirect, 1024) ∧
    faultOf (.indirectLoad 0 7 0) [(7, 1023)] = none ∧ faultOf (.indirectLoad 0 7 0) [(7, 1024)] = some (.ptrViaC, 1024) ∧
    faultOf (.shiftStore 7 0 1024) [] = some (.dDirect, 1024) ∧
    faultOf (.shiftStore 7 0 0) [(7, 16383)] = some (.ptrViaB, 16383) ∧
    faultOf (.indirectStore 0 16383 0) [] = some (.cDirect, 16383) := by decide
theorem test_wit_CellsBelow : CellsBelow 16384 [(7, 16383)] ∧ CellsBelow (2 ^ 14) [(7, 16383)] := by
  have h : CellsBelow 16384 [(7, 16383)] := by
    intro a
    rw [Memory.read_cons]
    split
    · decide
    · rw [Memory.read_nil]; decide
  exact ⟨h, h⟩
/-- FaultIsPrecise: a step into a fault through a pointer, from cells that fit 14 bits -/
theorem test_wit_FaultIsPrecise :
    after [(7, 16383)] 0x000000000700000E = some ([(7, 16383)], 0, faultedAt0 14 .ptrViaC 16383) := by decide
theorem test_wit_ImmediateStoreEffect :
    wordA 0x400F = 15 ∧ 1023 < (wordB 0x400F).toNat ∧ (1023 : FieldB).toNat ≤ 1023 ∧ 1023 < (1024 : FieldB).toNat := by decide
theorem test_wit_ImmediateStoreRepeats :
    (1023 : FieldB).toNat ≤ 1023 ∧ (nextOf (exec (.immediateStore 1023 16383 9) State.reset)).isSome = true := by decide
theorem test_wit_IndirectLoadEffect :
    wordA 0x700000E = 14 ∧
    ((1023 : FieldC).toNat ≤ 1023 ∧ Memory.read [(1023, 1023)] (1023 : FieldC).toNat ≤ 1023 ∧ (1023 : FieldB).toNat ≤ 1023) ∧
    1023 < (1024 : FieldC).toNat ∧
    ((1023 : FieldC).toNat ≤ 1023 ∧ 1023 < Memory.read [(1023, 1024)] (1023 : FieldC).toNat) ∧
    ((1023 : FieldC).toNat ≤ 1023 ∧ Memory.read [(1023, 1023)] (1023 : FieldC).toNat ≤ 1023 ∧ 1023 < (1024 : FieldB).toNat) ∧
    (Memory.read [(5, 42), (7, 5)] 7 = 5 ∧ Memory.read [(5, 42), (7, 5)] 5 = 42) ∧
    (nextOf (exec (.immediateStore 7 2000 0) State.reset)).isSome = true := by decide
theorem test_wit_IndirectStoreEffect :
    wordA 0x7000038 = 8 ∧
    ((1023 : FieldB).toNat ≤ 1023 ∧ (1023 : FieldC).toNat ≤ 1023 ∧ Memory.read [(1023, 1023)] (1023 : FieldC).toNat ≤ 1023) ∧
    1023 < (1024 : FieldB).toNat ∧
    ((1023 : FieldB).toNat ≤ 1023 ∧ 1023 < (1024 : FieldC).toNat) ∧
    ((1023 : FieldB).toNat ≤ 1023 ∧ (1023 : FieldC).toNat ≤ 1023 ∧ 1023 < Memory.read [(1023, 1024)] (1023 : FieldC).toNat) ∧
    (Memory.read [(3, 42), (7, 5)] 3 = 42 ∧ Memory.read [(3, 42), (7, 5)] 7 = 5) := by decide
theorem test_wit_ShiftStoreEffect :
    wordA 0x2C00A00014C = 12 ∧
    ((1023 : FieldC).toNat ≤ 1023 ∧ (1023 : FieldD).toNat ≤ 1023 ∧ (1023 : FieldB).toNat ≤ 1023 ∧
      Memory.read [(1023, 1023)] (1023 : FieldB).toNat ≤ 1023) ∧
    1023 < (1024 : FieldC).toNat ∧ 1023 < (1024 : FieldD).toNat ∧ 1023 < (1024 : FieldB).toNat ∧
    1023 < Memory.read [(1023, 1024)] (1023 : FieldB).toNat ∧
    (Memory.read [(10, 40), (11, 1)] 20 = 0 ∧ Memory.read [(10, 40), (11, 1)] 10 = 40 ∧ Memory.read [(10, 40), (11, 1)] 11 = 1) := by
  decide
theorem test_wit_ShiftCornerCases : 16383 ≤ 16383 ∧ 14 ≤ 14 := by decide
theorem test_wit_IndirectAliasing :
    ((7 : FieldB).toNat = (7 : FieldC).toNat ∧ (7 : FieldC).toNat ≤ 1023 ∧ Memory.read [(7, 1023)] (7 : FieldC).toNat ≤ 1023) ∧
    (Memory.read [(1023, 1023)] (1023 : FieldC).toNat = (1023 : FieldC).toNat ∧ (1023 : FieldB).toNat ≤ 1023) ∧
    (Memory.read [(7, 1023)] (7 : FieldC).toNat = (1023 : FieldB).toNat ∧ (7 : FieldC).toNat ≤ 1023 ∧ (1023 : FieldB).toNat ≤ 1023) := by
  decide
/-- one memory for each of the seven cases of ShiftAliasing -/
theorem test_wit_ShiftAliasing :
    ((4 : FieldC).toNat = (4 : FieldD).toNat ∧ Memory.read [(2, 10), (4, 9)] (2 : FieldB).toNat ≤ 1023) ∧
    Memory.read [(2, 5)] (2 : FieldB).toNat = (5 : FieldC).toNat ∧ Memory.read [(2, 5)] (2 : FieldB).toNat = (5 : FieldD).toNat ∧
    Memory.read [(2, 2)] (2 : FieldB).toNat = (2 : FieldB).toNat ∧
    ((5 : FieldB).toNat = (5 : FieldC).toNat ∧ Memory.read [(5, 5), (6, 3)] (5 : FieldB).toNat ≤ 1023) ∧
    ((2 : FieldB).toNat = (2 : FieldD).toNat ∧ Memory.read [(0, 16383), (2, 13)] (2 : FieldB).toNat ≤ 1023) ∧
    ((3 : FieldB).toNat = (3 : FieldC).toNat ∧ (3 : FieldB).toNat = (3 : FieldD).toNat ∧
      Memory.read [(3, 3)] (3 : FieldB).toNat ≤ 1023) := by decide
/-- OnlyTheStoredCellChanges: a store, a cell that is not the one stored to, and a fault -/
theorem test_wit_OnlyTheStoredCellChanges :
    (nextOf (exec (.immediateStore 5 42 0) State.reset)).isSome = true ∧ cellStored (.immediateStore 5 42 0) [] ≠ some 6 ∧
    (nextOf (exec (.immediateStore 1024 42 0) State.reset)).isSome = true ∧ faultOf (.immediateStore 1024 42 0) [] ≠ none := by decide
/-- OnlyTheReadCellsMatter: two different memories that agree on the three cells read -/
theorem test_wit_OnlyTheReadCellsMatter :
    (∀ x ∈ cellsRead (.shiftStore 2 0 1) [(0, 41), (1, 1), (2, 10)],
      Memory.read [(0, 41), (1, 1), (2, 10)] x = Memory.read [(0, 41), (1, 1), (2, 10), (10, 3)] x) ∧
    (nextOf (exec (.shiftStore 2 0 1) (st [(0, 41), (1, 1), (2, 10)] []))).isSome = true ∧
    (nextOf (exec (.shiftStore 2 0 1) (st [(0, 41), (1, 1), (2, 10), (10, 3)] []))).isSome = true ∧
    faultOf (.shiftStore 2 0 1) [(0, 41), (1, 1), (2, 10)] = none ∧
    cellStored (.shiftStore 2 0 1) [(0, 41), (1, 1), (2, 10)] = some 10 := by decide
/-- CellKeepsValueUntilStored: one step that stores to cell 5 leaves cell 6 unstored -/
theorem test_wit_CellKeepsValueUntilStored : ∀ k, k < 1 →
    let u := transitions k (st [(6, 1)] (bytesLe 0x2A00005F))
    ¬ (u.status = .running ∧ u.pc < u.prog.length / 8 ∧ faultOf (decode (wordAt u.prog u.pc)) u.mem = none ∧
      cellStored (decode (wordAt u.prog u.pc)) u.mem = some 6) := by
  decide
/-- StepKeepsProgram, StepKeepsMemoryCanonical, StepKeepsCellsInWidth: a step from a memory in canonical form whose cells fit 14
bits (test_wit_CellsBelow) -/
theorem test_wit_step_keeps :
    Memory.wf [(7, 16383)] = true ∧ (nextOf (step (st [(7, 16383)] (bytesLe 0x2A00005F)))).isSome = true ∧ 14 ≤ 14 := by decide
/-- StepKeepsInv: a state with the invariant from which a step answers a next state -/
theorem test_wit_StepKeepsInv :
    Inv (st [(7, 16383)] (bytesLe 0x2A00005F)) ∧ (nextOf (step (st [(7, 16383)] (bytesLe 0x2A00005F)))).isSome = true :=
  ⟨{ canonical := by decide
     cells := test_wit_CellsBelow.1
     cursor := by decide
     ended := by intro h; cases h
     faulted := by intro info h; cases h }, by decide⟩
/-- the invariant in a state that has faulted: its last clause is met by a record, not by there being none -/
theorem test_inv_of_a_faulted_state : Inv { st [] (bytesLe 0x400F) with status := faultedAt0 15 .bDirect 1024 } :=
  { canonical := by decide
    cells := fun _ => Nat.zero_lt_succ _
    cursor := by decide
    ended := by intro h; cases h
    faulted := by intro info h; cases h; decide }
/-- RunIsFold: a program whose fold goes through, and one whose fold stops at a fault -/
theorem test_wit_RunIsFold :
    (foldSteps (wordsOf (bytesLe 0x2A00005F)) (State.reset.startRun (bytesLe 0x2A00005F))).status = .running ∧
    (foldSteps (wordsOf (bytesLe 0x400F)) (State.reset.startRun (bytesLe 0x400F))).status ≠ .running := by decide
/-- RunTerminates: no fault, and the bound met at its top -/
theorem test_wit_RunTerminates :
    faultOf (.shiftStore 0 0 0) [] = none ∧ 1 ≤ (bytesLe 9).length / 8 ∧ 0 < (bytesLe 9).length / 8 ∧
    (transitions 1 (State.reset.startRun (bytesLe 9))).status = .running ∧
    (transitions 0 (State.reset.startRun (bytesLe 9))).status = .running := by decide
theorem test_wit_TrailingBytesIgnored :
    (bytesLe 9).length % 8 = 0 ∧ ([1, 2, 3, 4, 5, 6, 7] : List Byte).length < 8 ∧ ([] : List Byte).length < 8 ∧
    ({ st [] (bytesLe 9 ++ [1, 2, 3, 4, 5, 6, 7]) with pc := 1 } : State).pc = (bytesLe 9).length / 8 := by decide
theorem test_wit_ShortProgramEndsAtOnce : ([1, 2, 3, 4, 5, 6, 7] : List Byte).length < 8 := by decide
theorem test_wit_Extraction :
    (({ st [] [] with status := .ended } : State).status = .ended ∧ 0 ≤ 1023 ∧ 1023 ≤ 1023) ∧ (1023 < 1024 ∨ 1024 < 0) ∧
    (1023 < 0 ∨ 0 < 1) ∧ (st [] []).status ≠ .ended := by decide

end Sys2Proof.Tests
end

section
/-! SUPPORT. What the decoder gives on a string of bytes, and what a step runs at each position of the cursor. -/

namespace Sys2Proof.Machine

theorem decodeBytes_of_length_lt {y : List Byte} (h : y.length < 8) : decodeBytes y = .truncatedInput := by
  unfold decodeBytes
  split
  · simp only [List.length_cons] at h
    omega
  · rfl

/-- At least 8 bytes decode to their first word's instruction, with the bytes after it left. -/
theorem decodeBytes_of_le_length {y : List Byte} (h : 8 ≤ y.length) :
    decodeBytes y = .instr (decode (wordAt y 0)) (y.drop 8) := by
  match y, h with
  | _ :: _ :: _ :: _ :: _ :: _ :: _ :: _ :: _, _ => rfl

/-- The first word of the bytes from offset `8 * k` on is word number `k`. -/
theorem wordAt_drop_zero (p : List Byte) (k : Nat) : wordAt (p.drop (8 * k)) 0 = wordAt p k := by
  simp [wordAt, List.getD_eq_getElem?_getD]

/-- R71: below the number of words, the fetch gives the instruction of the word at the cursor. -/
theorem fetch_of_pc_lt {s : State} (h : s.pc < s.prog.length / 8) :
    s.fetch = .instr (decode (wordAt s.prog s.pc)) ((s.prog.drop (8 * s.pc)).drop 8) := by
  rw [← wordAt_drop_zero]
  exact decodeBytes_of_le_length (y := s.prog.drop (8 * s.pc)) (by rw [List.length_drop]; omega)

/-- R79, R80: from the number of words on, fewer than 8 bytes are left. -/
theorem fetch_of_le_pc {s : State} (h : s.prog.length / 8 ≤ s.pc) : s.fetch = .truncatedInput :=
  decodeBytes_of_length_lt (y := s.prog.drop (8 * s.pc)) (by rw [List.length_drop]; omega)

theorem step_of_pc_lt {s : State} (hs : s.status = .running) (h : s.pc < s.prog.length / 8) :
    step s = exec (decode (wordAt s.prog s.pc)) s := step_of_instr hs (fetch_of_pc_lt h)

theorem step_of_le_pc {s : State} (hs : s.status = .running) (h : s.prog.length / 8 ≤ s.pc) :
    step s = .next s.endRun := step_of_truncated hs (fetch_of_le_pc h)

end Sys2Proof.Machine
end

section
/-! SUPPORT. Running an instruction, said once for all sixteen: its checks in the order of 60_exceptions R121, and then its
completion, which is one store or none and the advance of the cursor. -/

namespace Sys2Proof.Machine

/-- The value an instruction that completes stores, computed from the memory before the step (20_memory R31). It has a meaning
only where `cellStored` names a cell. -/
def valueStored (i : Instr) (m : Memory) : Nat :=
  match i with
  | .immediateStore _ c _ => literal c
  | .indirectLoad _ c _ => Memory.read m (Memory.read m c.toNat)
  | .indirectStore b _ _ => Memory.read m b.toNat
  | .shiftStore _ c d => shiftRight (Memory.read m c.toNat) (Memory.read m d.toNat)
  | _ => 0

/-- The state in which an instruction that passes its checks leaves the machine. -/
def completed (i : Instr) (s : State) : State :=
  match cellStored i s.mem with
  | some x => (s.memWrite x (valueStored i s.mem)).advance
  | none => s.advance

@[simp] theorem completed_status (i : Instr) (s : State) : (completed i s).status = s.status := by
  unfold completed
  split <;> rfl

/-- The checks of a list in order, in an instruction of opcode `a`, and then the rest of it. -/
def runChecks (a : Opcode) (l : List (Role × Nat)) (s : State) (rest : Result) : Result :=
  l.foldr (fun c r => check a c.1 c.2 s r) rest

theorem runChecks_of_none {l : List (Role × Nat)} (h : firstFailing l = none) (a : Opcode) (s : State) (k : Result) :
    runChecks a l s k = k := by
  induction l with
  | nil => rfl
  | cons c l ih =>
    rw [firstFailing] at h
    split at h
    next => cases h
    next hc => exact (check_inRange a c.1 c.2 s _ (Nat.not_lt.1 hc)).trans (ih h)

theorem runChecks_of_some {l : List (Role × Nat)} {r : Role} {n : Nat} (h : firstFailing l = some (r, n)) (a : Opcode)
    (s : State) (k : Result) : runChecks a l s k = .next (s.raiseOutOfBounds a r n) := by
  induction l with
  | nil => cases h
  | cons c l ih =>
    rw [firstFailing] at h
    split at h
    next hc => cases h; exact check_outOfRange a _ _ s _ hc
    next hc => exact (check_inRange a c.1 c.2 s _ (Nat.not_lt.1 hc)).trans (ih h)

/-- Every instruction is its list of checks and then its completion. -/
theorem exec_eq_runChecks (i : Instr) (s : State) :
    exec i s = runChecks (opcodeOf i) (checksOf i s.mem) s (.next (completed i s)) := by
  cases i <;> rfl

theorem exec_of_faultOf_none {i : Instr} {s : State} (h : faultOf i s.mem = none) : exec i s = .next (completed i s) :=
  (exec_eq_runChecks i s).trans (runChecks_of_none h _ s _)

theorem exec_of_faultOf_some {i : Instr} {s : State} {r : Role} {n : Nat} (h : faultOf i s.mem = some (r, n)) :
    exec i s = .next (s.raiseOutOfBounds (opcodeOf i) r n) :=
  (exec_eq_runChecks i s).trans (runChecks_of_some h _ s _)

/-- Everything running an instruction can lead to: its completion, or the fault of its first failing check. -/
theorem exec_next {i : Instr} {s t : State} (h : exec i s = .next t) :
    (faultOf i s.mem = none ∧ t = completed i s) ∨
      ∃ r n, faultOf i s.mem = some (r, n) ∧ t = s.raiseOutOfBounds (opcodeOf i) r n := by
  cases hf : faultOf i s.mem with
  | none =>
    rw [exec_of_faultOf_none hf] at h
    cases h
    exact .inl ⟨rfl, rfl⟩
  | some c =>
    rw [exec_of_faultOf_some hf] at h
    cases h
    exact .inr ⟨c.1, c.2, rfl, rfl⟩

end Sys2Proof.Machine
end

section
/-! SUPPORT. The transitions of the run status (10_state R20). -/

namespace Sys2Proof.Machine

/-- No step is taken outside `Running`: `Ended` and `Faulted` are terminal. -/
theorem step_ne_next_of_not_running {s : State} (h : s.status ≠ .running) (t : State) : step s ≠ .next t :=
  fun ht => h (step_next ht).1

/-- Everything a step can lead to: the completion of the word at the cursor, the fault of its first failing check, or the end
of the run. -/
theorem step_next_cases {s t : State} (h : step s = .next t) :
    s.status = .running ∧
      ((s.pc < s.prog.length / 8 ∧ faultOf (decode (wordAt s.prog s.pc)) s.mem = none ∧
          t = completed (decode (wordAt s.prog s.pc)) s) ∨
       (s.prog.length / 8 ≤ s.pc ∧ t = s.endRun) ∨
       (s.pc < s.prog.length / 8 ∧ ∃ r n, faultOf (decode (wordAt s.prog s.pc)) s.mem = some (r, n) ∧
          t = s.raiseOutOfBounds (opcodeOf (decode (wordAt s.prog s.pc))) r n)) := by
  have hs := (step_next h).1
  refine ⟨hs, ?_⟩
  rcases Nat.lt_or_ge s.pc (s.prog.length / 8) with hpc | hpc
  · rw [step_of_pc_lt hs hpc] at h
    rcases exec_next h with ⟨hf, ht⟩ | hfault
    · exact .inl ⟨hpc, hf, ht⟩
    · exact .inr (.inr ⟨hpc, hfault⟩)
  · rw [step_of_le_pc hs hpc] at h
    cases h
    exact .inr (.inl ⟨hpc, rfl⟩)

/-- Settles O23: the three things a step can lead to are the three rows of the table, and a step starts from `Running` only. -/
theorem statusTransitions : Obligations.StatusTransitions := by
  refine ⟨reset_status, fun s t h => ?_, fun s t hs => ?_, fun s t info hs => ?_⟩
  · obtain ⟨hs, ⟨hpc, hf, rfl⟩ | ⟨hpc, rfl⟩ | ⟨hpc, r, n, hf, rfl⟩⟩ := step_next_cases h
    · exact ⟨hs, .inl ⟨(completed_status _ s).trans hs, hpc, hf⟩⟩
    · exact ⟨hs, .inr (.inl ⟨endRun_status s, hpc⟩)⟩
    · exact ⟨hs, .inr (.inr ⟨_, raiseOutOfBounds_status s _ r n, hpc, hf⟩)⟩
  · exact step_ne_next_of_not_running (by simp [hs]) t
  · exact step_ne_next_of_not_running (by simp [hs]) t

end Sys2Proof.Machine
end

section
/-! SUPPORT. Packing as arithmetic (30_encoding R43): the masks are remainders, the encoded word is a sum of fields at their
places, and a word's fields and bytes are what this sum says. -/

namespace Sys2Proof

theorem and_maskA (n : Nat) : n &&& 0xF = n % 16 := Nat.and_two_pow_sub_one_eq_mod n 4
theorem and_maskB (n : Nat) : n &&& 0xFFFFF = n % 1048576 := Nat.and_two_pow_sub_one_eq_mod n 20
theorem and_maskC (n : Nat) : n &&& 0x3FFF = n % 16384 := Nat.and_two_pow_sub_one_eq_mod n 14
theorem and_maskD (n : Nat) : n &&& 0xFFFF = n % 65536 := Nat.and_two_pow_sub_one_eq_mod n 16

/-- Bits below place `i` combined with bits from place `i` up: nothing overlaps, so `|` is `+`. -/
theorem or_shiftLeft_eq_add {x i : Nat} (h : x < 2 ^ i) (y : Nat) : x ||| (y <<< i) = x + 2 ^ i * y := by
  rw [Nat.or_comm, ← Nat.shiftLeft_add_eq_or_of_lt h, Nat.shiftLeft_eq, Nat.mul_comm, Nat.add_comm]

/-- The encoded word as a number: each masked field at its place. -/
theorem encodeFields_toNat (a b c d : Nat) : (encodeFields a b c d).toNat =
    a % 16 + 16 * (b % 2 ^ 20) + 2 ^ 24 * (c % 2 ^ 14) + 2 ^ 38 * (d % 2 ^ 16) := by
  rw [encodeFields, and_maskA, and_maskB, and_maskC, and_maskD, or_shiftLeft_eq_add (i := 4) (by omega),
    or_shiftLeft_eq_add (i := 24) (by omega), or_shiftLeft_eq_add (i := 38) (by omega), BitVec.toNat_ofNat,
    Nat.mod_eq_of_lt (by omega)]
  rfl

/-- R41: bits 63 to 54 of an encoded word are zero. -/
theorem encodeFields_toNat_lt (a b c d : Nat) : (encodeFields a b c d).toNat < 2 ^ 54 := by
  rw [encodeFields_toNat]
  omega

/-- The outputs of `DEC` are determined by the four slices of the word as numbers. -/
theorem decodeFields_eq_of_toNat {w : Word} {o : DecodedFields}
    (ha : w.toNat % 16 = o.aOut.toNat) (hb : w.toNat / 16 % 1048576 = o.bOut.toNat)
    (hc : w.toNat / 16777216 % 16384 = o.cOut.toNat) (hd : w.toNat / 274877906944 % 65536 = o.dOut.toNat) :
    decodeFields w = o := by
  rw [decodeFields, BitVec.eq_of_toNat_eq ((wordA_toNat w).trans ha), BitVec.eq_of_toNat_eq ((wordB_toNat w).trans hb),
    BitVec.eq_of_toNat_eq ((wordC_toNat w).trans hc), BitVec.eq_of_toNat_eq ((wordD_toNat w).trans hd)]

/-- Decoding inverts packing, up to the truncation of R44. -/
theorem decodeFields_encodeFields (a b c d : Nat) : decodeFields (encodeFields a b c d) =
    ⟨BitVec.ofNat 4 a, BitVec.ofNat 20 b, BitVec.ofNat 14 c, BitVec.ofNat 16 d⟩ := by
  have hw := encodeFields_toNat a b c d
  apply decodeFields_eq_of_toNat <;> rw [BitVec.toNat_ofNat] <;> omega

/-- R41: the decoder does not look at bits 63 to 54. -/
theorem decodeFields_congr {w w' : Word} (h : w.toNat % 2 ^ 54 = w'.toNat % 2 ^ 54) : decodeFields w = decodeFields w' := by
  apply decodeFields_eq_of_toNat
  · rw [decodeFields, wordA_toNat]; omega
  · rw [decodeFields, wordB_toNat]; omega
  · rw [decodeFields, wordC_toNat]; omega
  · rw [decodeFields, wordD_toNat]; omega

theorem clearUnused_toNat (w : Word) : (w &&& 0x003FFFFFFFFFFFFF#64).toNat = w.toNat % 2 ^ 54 :=
  (BitVec.toNat_and _ _).trans (Nat.and_two_pow_sub_one_eq_mod w.toNat 54)

theorem decodeFields_clearUnused (w : Word) : decodeFields (w &&& 0x003FFFFFFFFFFFFF#64) = decodeFields w :=
  decodeFields_congr (by rw [clearUnused_toNat, Nat.mod_mod])

theorem decode_clearUnused (w : Word) : decode (w &&& 0x003FFFFFFFFFFFFF#64) = decode w := by
  rw [decode, decodeFields_clearUnused, decode]

/-- R51: reading a word's eight bytes little-endian gives the word back. -/
theorem wordLe_byteOf (w : Word) : wordLe (byteOf w 0) (byteOf w 1) (byteOf w 2) (byteOf w 3) (byteOf w 4) (byteOf w 5)
    (byteOf w 6) (byteOf w 7) = w := by
  apply BitVec.eq_of_toNat_eq
  have hw := w.isLt
  simp only [wordLe_toNat, byteOf_toNat, Nat.reduceMul, Nat.reducePow] at hw ⊢
  omega

end Sys2Proof
end

section
/-! SUPPORT. The fields and words of the encoder and the decoder (30_encoding R44 to R54). -/

namespace Sys2Proof

/-- Settles O7: decoding inverts packing up to truncation, truncation does nothing within the field ranges, and the bytes of a
word read back as the word. -/
theorem fieldRoundTrip : Obligations.FieldRoundTrip := by
  refine ⟨fun f hf => ?_, fun a b c d => ?_, fun a b c d => ?_⟩
  · obtain ⟨ha, hb, hc, hd⟩ := hf
    simp only [decodeFields_encodeFields, BitVec.toNat_ofNat]
    rw [Nat.mod_eq_of_lt (by omega), Nat.mod_eq_of_lt (by omega), Nat.mod_eq_of_lt (by omega), Nat.mod_eq_of_lt (by omega)]
  · simp only [decodeFields_encodeFields, BitVec.toNat_ofNat]
    exact ⟨(and_maskA a).symm, (and_maskB b).symm, (and_maskC c).symm, (and_maskD d).symm⟩
  · exact congrArg decodeFields (wordLe_byteOf _)

/-- Settles O4: masking twice is masking once. -/
theorem encodeTruncates : Obligations.EncodeTruncates := by
  refine ⟨fun a b c d => ?_, by decide, by decide, by decide⟩
  simp only [encodeFields, Nat.and_assoc, Nat.and_self]

/-- Settles O6: a shift is a division and a mask a remainder; the second half is `decodeFields_encodeFields`. -/
theorem decodeIsShiftAndMask : Obligations.DecodeIsShiftAndMask := by
  refine ⟨fun w => ?_, decodeFields_encodeFields⟩
  simp only [Nat.shiftRight_eq_div_pow, and_maskA, and_maskB, and_maskC, and_maskD]
  exact ⟨wordA_toNat w, wordB_toNat w, wordC_toNat w, wordD_toNat w⟩

/-- Settles O5: `d_in` enters the outputs through `dPacked` only, which is 0 where D is not given. -/
theorem encoderBlockOutputs : Obligations.EncoderBlockOutputs :=
  ⟨fun _ => ⟨rfl, rfl⟩, fun _ _ _ _ _ => ⟨rfl, rfl⟩⟩

end Sys2Proof
end

section
/-! SUPPORT. The opcode map (30_encoding R56) and the decoder on bytes (R52). -/

namespace Sys2Proof

/-- The opcode value selects the instruction, the rest of the word fills its operand fields. -/
theorem decode_of_wordA {w : Word} {a : Opcode} (h : wordA w = a) :
    decode w = instrOf a (wordB w) (wordC w) (wordD w) := h ▸ rfl

/-- Settles O13: each clause is `decode_of_wordA`, with `instrOf` evaluated at the opcode value. -/
theorem opcodeMap : Obligations.OpcodeMap := fun w =>
  ⟨decode_of_wordA, decode_of_wordA, decode_of_wordA, decode_of_wordA, decode_of_wordA, decode_of_wordA, decode_of_wordA,
    decode_of_wordA, decode_of_wordA, decode_of_wordA, decode_of_wordA, decode_of_wordA, decode_of_wordA, decode_of_wordA,
    decode_of_wordA, decode_of_wordA, (wordA_toNat w).symm⟩

/-- Settles O16: a byte string holds an instruction exactly when it holds 8 bytes, and the fields lie below bit 54. -/
theorem decoderTotalOnEightBytes : Obligations.DecoderTotalOnEightBytes :=
  ⟨fun _ => ⟨Machine.decodeBytes_of_le_length, Machine.decodeBytes_of_length_lt⟩, fun _ _ => decodeFields_congr⟩

end Sys2Proof
end

section
/-! SUPPORT. No encoding is illegal (30_encoding R58). -/

namespace Sys2Proof.Machine

theorem exec_isNext (i : Instr) (s : State) : ∃ t, exec i s = .next t := by
  cases hf : faultOf i s.mem with
  | none => exact ⟨_, exec_of_faultOf_none hf⟩
  | some c => exact ⟨_, exec_of_faultOf_some hf⟩

/-- R110: each of the twelve opcode values without a meaning only advances the cursor, whatever its fields hold. -/
theorem exec_instrOf_undefined {a : Opcode} (ha : a ∈ ([0, 1, 2, 3, 4, 5, 6, 7, 9, 10, 11, 13] : List Opcode))
    (b : FieldB) (c : FieldC) (d : FieldD) (s : State) : exec (instrOf a b c d) s = .next s.advance := by
  fin_cases ha <;> rfl

theorem decode_allOnes : decode 0xFFFFFFFFFFFFFFFF = .immediateStore 1048575 16383 65535 := by decide

/-- Settles O17: an instruction answers its completion or a fault; an undefined one only advances; the all-ones word fails
its one check. -/
theorem everyWordRuns : Obligations.EveryWordRuns := by
  refine ⟨fun w s => exec_isNext _ s, fun w s hw => ?_, encodeFields_toNat_lt, decode_clearUnused, by decide, decode_allOnes,
    fun s => ?_⟩
  · rw [decode_of_wordA rfl]
    exact exec_instrOf_undefined hw _ _ _ s
  · rw [decode_allOnes]
    exact exec_of_faultOf_some (i := .immediateStore 1048575 16383 65535) (r := .bDirect) (n := 1048575) rfl

end Sys2Proof.Machine
end

section
/-! SUPPORT. The binary program format (30_encoding R61). -/

namespace Sys2Proof.Machine

@[simp] theorem bytesLe_length (w : Word) : (bytesLe w).length = 8 := rfl

theorem binaryProgram_cons (p : EncoderInput) (ps : List EncoderInput) :
    binaryProgram (p :: ps) = bytesLe (encBlock p).wordOut ++ binaryProgram ps := rfl

theorem binaryProgram_length (ps : List EncoderInput) : (binaryProgram ps).length = 8 * ps.length := by
  induction ps with
  | nil => rfl
  | cons p ps ih =>
    rw [binaryProgram_cons, List.length_append, bytesLe_length, ih, List.length_cons]
    omega

theorem binaryProgram_append (ps qs : List EncoderInput) :
    binaryProgram (ps ++ qs) = binaryProgram ps ++ binaryProgram qs := by
  induction ps with
  | nil => rfl
  | cons p ps ih => rw [List.cons_append, binaryProgram_cons, binaryProgram_cons, ih, List.append_assoc]

theorem wordAt_bytesLe_append_zero (w : Word) (y : List Byte) : wordAt (bytesLe w ++ y) 0 = w := wordLe_byteOf w

theorem wordAt_bytesLe_append_succ (w : Word) (y : List Byte) (k : Nat) : wordAt (bytesLe w ++ y) (k + 1) = wordAt y k := by
  rw [← wordAt_drop_zero, ← wordAt_drop_zero y, Nat.mul_succ, Nat.add_comm, ← List.drop_drop]
  rfl

theorem wordAt_binaryProgram (ps : List EncoderInput) (k : Nat) (h : k < ps.length) :
    wordAt (binaryProgram ps) k = (encBlock ps[k]).wordOut := by
  induction ps generalizing k with
  | nil => cases h
  | cons p ps ih =>
    rw [binaryProgram_cons]
    cases k with
    | zero => exact wordAt_bytesLe_append_zero _ _
    | succ k => exact (wordAt_bytesLe_append_succ _ _ k).trans (ih k (Nat.lt_of_succ_lt_succ h))

/-- Settles O18, by induction on the list of inputs: the first input gives the first eight bytes. -/
theorem binaryProgramWords : Obligations.BinaryProgramWords :=
  ⟨binaryProgram_length, wordAt_binaryProgram, binaryProgram_append⟩

end Sys2Proof.Machine
end

section
/-! SUPPORT. The dispatch classes (40_run_loop R75). -/

namespace Sys2Proof.Machine

/-- The class `undefined` is that of the twelve values without a meaning only. -/
theorem mem_undefined_of_classify : ∀ {a : Opcode}, classify a = .undefined a →
    a ∈ ([0, 1, 2, 3, 4, 5, 6, 7, 9, 10, 11, 13] : List Opcode) := by decide

theorem opcodeOf_instrOf (a : Opcode) (b : FieldB) (c : FieldC) (d : FieldD) : opcodeOf (instrOf a b c d) = a := by
  obtain ⟨a, ha⟩ := a
  interval_cases a <;> rfl

/-- Settles O14: an undefined code leaves an instruction nothing to do but advance, and decoding keeps field A as the opcode. -/
theorem dispatchClasses : Obligations.DispatchClasses := by
  refine ⟨by decide, by decide, by decide, by decide, by decide, fun a a' b c d s ha ha' => ?_, fun i w hi => ?_⟩
  · rw [exec_instrOf_undefined (mem_undefined_of_classify ha), exec_instrOf_undefined (mem_undefined_of_classify ha')]
  · rw [← hi]
    exact opcodeOf_instrOf _ _ _ _

end Sys2Proof.Machine
end

section
/-! SUPPORT. What running an instruction does to the cursor and the program, and that it reads neither (40_run_loop R76, R77). -/

namespace Sys2Proof.Machine

/-- The memory that an instruction passing its checks leaves, as a function of the memory before it alone. -/
def storedMem (i : Instr) (m : Memory) : Memory :=
  match cellStored i m with
  | some x => Memory.write m x (valueStored i m)
  | none => m

/-- Completion field by field: the memory is stored to, the cursor advances, the status and the program stay. -/
theorem completed_eq (i : Instr) (s : State) :
    completed i s = { s with mem := storedMem i s.mem, pc := s.pc + 1 } := by
  unfold completed storedMem
  cases cellStored i s.mem <;> rfl

@[simp] theorem completed_pc (i : Instr) (s : State) : (completed i s).pc = s.pc + 1 := by rw [completed_eq]
@[simp] theorem completed_prog (i : Instr) (s : State) : (completed i s).prog = s.prog := by rw [completed_eq]

theorem completed_withPc (i : Instr) (s : State) (k : Nat) :
    completed i { s with pc := k } = { completed i s with pc := k + 1 } := by
  rw [completed_eq, completed_eq]

theorem completed_withProg (i : Instr) (s : State) (q : List Byte) :
    completed i { s with prog := q } = { completed i s with prog := q } := by
  rw [completed_eq, completed_eq]

/-- An instruction that leaves the machine running has passed its checks. -/
theorem eq_completed_of_running {i : Instr} {s t : State} (h : exec i s = .next t) (ht : t.status = .running) :
    t = completed i s := by
  rcases exec_next h with ⟨-, h⟩ | ⟨r, n, -, rfl⟩
  · exact h
  · cases ht

/-- No instruction looks at the program: with another one in its place it does the same. -/
theorem exec_withProg {i : Instr} {s t : State} (h : exec i s = .next t) (q : List Byte) :
    exec i { s with prog := q } = .next { t with prog := q } := by
  rcases exec_next h with ⟨hf, rfl⟩ | ⟨r, n, hf, rfl⟩
  · rw [← completed_withProg]
    exact exec_of_faultOf_none hf
  · exact exec_of_faultOf_some hf

/-- Settles O25: a completion advances the cursor and keeps the status, a fault keeps the cursor. -/
theorem cursorAdvances : Obligations.CursorAdvances := by
  intro i s
  cases hf : faultOf i s.mem with
  | none =>
    refine ⟨_, exec_of_faultOf_none hf, fun _ => ⟨completed_pc i s, ?_, completed_status i s⟩, fun h => absurd rfl h⟩
    rw [completed_pc, Nat.mul_succ]
  | some c => exact ⟨_, exec_of_faultOf_some hf, nofun, fun _ => raiseOutOfBounds_pc s _ _ _⟩

/-- Settles O20: below the number of words the step is `exec` of the word at the cursor, which always answers a next state. -/
theorem stepRunsFetchedWord : Obligations.StepRunsFetchedWord := by
  intro s hs hpc
  have hstep := step_of_pc_lt hs hpc
  exact ⟨by omega, hstep, hstep ▸ exec_isNext _ s⟩

end Sys2Proof.Machine
end

section
/-! SUPPORT. Transitions one after the other (40_run_loop R72). -/

namespace Sys2Proof.Machine

/-- R72: a transition is enabled in every running state. -/
theorem step_isNext_of_running {s : State} (hs : s.status = .running) : ∃ t, step s = .next t := by
  rcases Nat.lt_or_ge s.pc (s.prog.length / 8) with hpc | hpc
  · rw [step_of_pc_lt hs hpc]
    exact exec_isNext _ s
  · exact ⟨_, step_of_le_pc hs hpc⟩

theorem step_prog {s t : State} (h : step s = .next t) : t.prog = s.prog := by
  obtain ⟨-, ⟨-, -, rfl⟩ | ⟨-, rfl⟩ | ⟨-, r, n, -, rfl⟩⟩ := step_next_cases h
  · exact completed_prog _ s
  · rfl
  · rfl

@[simp] theorem transitions_zero (s : State) : transitions 0 s = s := rfl

theorem transitions_succ_of_step {s t : State} (h : step s = .next t) (n : Nat) :
    transitions (n + 1) s = transitions n t := by
  simp only [transitions, h]

theorem transitions_of_not_running {s : State} (h : s.status ≠ .running) (n : Nat) : transitions n s = s := by
  cases n with
  | zero => rfl
  | succ n =>
    rw [transitions]
    split
    next t ht => exact absurd ht (step_ne_next_of_not_running h t)
    next => rfl
    next => rfl

theorem transitions_add (m n : Nat) (s : State) : transitions (m + n) s = transitions n (transitions m s) := by
  induction m generalizing s with
  | zero => rw [Nat.zero_add, transitions_zero]
  | succ m ih =>
    by_cases hs : s.status = .running
    · obtain ⟨t, ht⟩ := step_isNext_of_running hs
      rw [Nat.add_right_comm, transitions_succ_of_step ht, transitions_succ_of_step ht, ih]
    · simp only [transitions_of_not_running hs]

end Sys2Proof.Machine
end

section
/-! SUPPORT. A run step by step: the cursor counts its steps, and its end (40_run_loop R77, R79, R82). -/

namespace Sys2Proof.Machine

/-- The state of a run of `p` after `k` steps: still running with the cursor at `k`, or stopped by the fault of a word before
word `k`, with the cursor at that word and its index in the record. -/
def AfterSteps (p : List Byte) (k : Nat) (s : State) : Prop :=
  s.prog = p ∧ ((s.status = .running ∧ s.pc = k) ∨
    ∃ info, s.status = .faulted info ∧ info.index = s.pc ∧ s.pc < k)

theorem AfterSteps.start (p : List Byte) : AfterSteps p 0 (State.reset.startRun p) :=
  ⟨rfl, .inl ⟨rfl, rfl⟩⟩

/-- One more step while there are words left. -/
theorem AfterSteps.succ {p : List Byte} {k : Nat} {s : State} (h : AfterSteps p k s) (hk : k < p.length / 8) :
    AfterSteps p (k + 1) (transitions 1 s) := by
  obtain ⟨rfl, ⟨hs, rfl⟩ | ⟨info, hs, hi, hpc⟩⟩ := h
  · obtain ⟨t, ht⟩ := step_isNext_of_running hs
    rw [transitions_succ_of_step ht, transitions_zero]
    obtain ⟨-, ⟨-, -, rfl⟩ | ⟨hpc, -⟩ | ⟨-, r, n, -, rfl⟩⟩ := step_next_cases ht
    · exact ⟨completed_prog _ s, .inl ⟨(completed_status _ s).trans hs, completed_pc _ s⟩⟩
    · omega
    · exact ⟨rfl, .inr ⟨_, raiseOutOfBounds_status s _ r n, rfl, Nat.lt_succ_self s.pc⟩⟩
  · rw [transitions_of_not_running (by simp [hs])]
    exact ⟨rfl, .inr ⟨info, hs, hi, Nat.lt_succ_of_lt hpc⟩⟩

/-- As many steps of a run as its program has words, or fewer. -/
theorem afterSteps_transitions (p : List Byte) (k : Nat) (hk : k ≤ p.length / 8) :
    AfterSteps p k (transitions k (State.reset.startRun p)) := by
  induction k with
  | zero => exact .start p
  | succ k ih =>
    rw [transitions_add]
    exact (ih (by omega)).succ hk

/-- A run is the steps of its words and then one transition more. -/
theorem runProgram_eq (p : List Byte) :
    runProgram p = transitions 1 (transitions (p.length / 8) (State.reset.startRun p)) := transitions_add _ 1 _

/-- The transition after the last word ends the run. -/
theorem AfterSteps.end_of_running {p : List Byte} {s : State} (h : AfterSteps p (p.length / 8) s)
    (hs : s.status = .running) : s.pc = p.length / 8 ∧ transitions 1 s = s.endRun := by
  obtain ⟨rfl, ⟨-, hpc⟩ | ⟨info, hf, -⟩⟩ := h
  · exact ⟨hpc, transitions_succ_of_step (step_of_le_pc hs hpc.ge) 0⟩
  · rw [hs] at hf
    cases hf

/-- Everything a run can come to: the end of the program, or the fault of one of its words. -/
theorem runProgram_cases (p : List Byte) :
    ((runProgram p).status = .ended ∧ (runProgram p).pc = p.length / 8) ∨
      ∃ info, (runProgram p).status = .faulted info := by
  have h := afterSteps_transitions p (p.length / 8) (Nat.le_refl _)
  rw [runProgram_eq]
  rcases h.2 with ⟨hs, -⟩ | ⟨info, hs, -⟩
  · obtain ⟨hpc, hend⟩ := h.end_of_running hs
    exact .inl (hend ▸ ⟨endRun_status _, hpc⟩)
  · rw [transitions_of_not_running (by simp [hs])]
    exact .inr ⟨info, hs⟩

/-- Settles O22: past the last word the step is the end of the run, and a run that ends has come there word by word. -/
theorem endOfRun : Obligations.EndOfRun := by
  refine ⟨fun s hs hpc => step_of_le_pc hs hpc, fun p hp => ?_⟩
  rcases runProgram_cases p with ⟨-, hpc⟩ | ⟨info, hf⟩
  · exact ⟨hpc, by omega⟩
  · rw [hp] at hf
    cases hf

/-- Settles O48: a completion depends on the cursor only in that it advances it, so a run without a fault has run word after
word, and it comes to the end or to a fault. -/
theorem runTerminates : Obligations.RunTerminates := by
  refine ⟨fun i s k hf => ⟨_, exec_of_faultOf_none hf, completed_pc i s, ?_⟩, fun p k hk => ?_, fun p => ?_⟩
  · rw [← completed_withPc]
    exact exec_of_faultOf_none hf
  · intro t hnf
    obtain ⟨hprog, ⟨hs, hpc⟩ | ⟨info, hf, -⟩⟩ : AfterSteps p k t := afterSteps_transitions p k hk
    · refine ⟨hs, hpc, fun hlt => ?_⟩
      rw [step_of_pc_lt hs (by rwa [hprog, hpc]), hprog, hpc]
    · exact absurd hf (hnf info)
  · have hstop : (runProgram p).status ≠ .running := by
      rcases runProgram_cases p with ⟨h, -⟩ | ⟨info, h⟩ <;> simp [h]
    exact ⟨hstop, step_ne_next_of_not_running hstop⟩

end Sys2Proof.Machine
end

section
/-! SUPPORT. The run as a fold over the words of the program (40_run_loop R82). -/

namespace Sys2Proof.Machine

/-- The fold over the next `n` words is `n` steps. -/
theorem foldSteps_eq_transitions {s : State} (hs : s.status = .running) {n : Nat}
    (hn : s.pc + n ≤ s.prog.length / 8) :
    foldSteps ((List.range' s.pc n).map (wordAt s.prog)) s = transitions n s := by
  induction n generalizing s with
  | zero => rfl
  | succ n ih =>
    obtain ⟨t, ht⟩ := exec_isNext (decode (wordAt s.prog s.pc)) s
    have hstep : step s = .next t := (step_of_pc_lt hs (by omega)).trans ht
    rw [List.range'_succ, List.map_cons, transitions_succ_of_step hstep]
    simp only [foldSteps, ht]
    split
    next hrun =>
      have hpc : t.pc = s.pc + 1 := eq_completed_of_running ht hrun ▸ completed_pc _ s
      have hprog : t.prog = s.prog := step_prog hstep
      rw [← hpc, ← hprog]
      exact ih hrun (by rw [hpc, hprog]; omega)
    next hstop => exact (transitions_of_not_running hstop n).symm

theorem foldSteps_wordsOf (p : List Byte) : foldSteps (wordsOf p) (State.reset.startRun p) =
    transitions (p.length / 8) (State.reset.startRun p) := by
  rw [wordsOf, List.range_eq_range']
  exact foldSteps_eq_transitions (s := State.reset.startRun p) rfl (by simp)

/-- Settles O47: the fold is the steps of the words, after which the run has one transition left where none faulted. -/
theorem runIsFold : Obligations.RunIsFold := by
  intro p t
  have ht : t = transitions (p.length / 8) (State.reset.startRun p) := foldSteps_wordsOf p
  have hrun : runProgram p = transitions 1 t := ht ▸ runProgram_eq p
  have hsteps : AfterSteps p (p.length / 8) t := ht ▸ afterSteps_transitions p _ (Nat.le_refl _)
  rw [hrun]
  refine ⟨hsteps.end_of_running, fun hstop => ⟨transitions_of_not_running hstop 1, ?_⟩⟩
  obtain ⟨-, ⟨hs, -⟩ | ⟨info, hf, hi, hpc⟩⟩ := hsteps
  · exact absurd hs hstop
  · exact ⟨hpc, info, hf, hi⟩

end Sys2Proof.Machine
end

section
/-! SUPPORT. Trailing bytes: a run depends on the complete words of its program only (40_run_loop R80). -/

namespace Sys2Proof.Machine

/-- The two programs have the same complete words. -/
def SameWords (p q : List Byte) : Prop :=
  p.length / 8 = q.length / 8 ∧ ∀ k < p.length / 8, wordAt p k = wordAt q k

theorem wordAt_append {p : List Byte} {k : Nat} (h : k < p.length / 8) (y : List Byte) :
    wordAt (p ++ y) k = wordAt p k := by
  simp (disch := omega) only [wordAt, List.getD_append]

theorem length_append_div {p y : List Byte} (hp : p.length % 8 = 0) (hy : y.length < 8) :
    (p ++ y).length / 8 = p.length / 8 := by
  rw [List.length_append]
  omega

/-- Fewer than 8 bytes after whole words make no word of their own. -/
theorem sameWords_append {p y z : List Byte} (hp : p.length % 8 = 0) (hy : y.length < 8) (hz : z.length < 8) :
    SameWords (p ++ y) (p ++ z) := by
  refine ⟨by rw [length_append_div hp hy, length_append_div hp hz], fun k hk => ?_⟩
  rw [length_append_div hp hy] at hk
  rw [wordAt_append hk, wordAt_append hk]

/-- With a program of the same words in its place, a step does the same. -/
theorem step_withProg {s t : State} {q : List Byte} (hq : SameWords s.prog q) (h : step s = .next t) :
    step { s with prog := q } = .next { t with prog := q } := by
  obtain ⟨hlen, hword⟩ := hq
  have hs := (step_next h).1
  rcases Nat.lt_or_ge s.pc (s.prog.length / 8) with hpc | hpc
  · rw [step_of_pc_lt hs hpc, hword _ hpc] at h
    rw [step_of_pc_lt (s := { s with prog := q }) hs (hlen ▸ hpc)]
    exact exec_withProg h q
  · rw [step_of_le_pc hs hpc] at h
    cases h
    exact step_of_le_pc (s := { s with prog := q }) hs (hlen ▸ hpc)

theorem transitions_withProg {s : State} {q : List Byte} (hq : SameWords s.prog q) (n : Nat) :
    transitions n { s with prog := q } = { transitions n s with prog := q } := by
  induction n generalizing s with
  | zero => rfl
  | succ n ih =>
    by_cases hs : s.status = .running
    · obtain ⟨t, ht⟩ := step_isNext_of_running hs
      rw [transitions_succ_of_step ht, transitions_succ_of_step (step_withProg hq ht)]
      exact ih (step_prog ht ▸ hq)
    · rw [transitions_of_not_running hs, transitions_of_not_running (s := { s with prog := q }) hs]

/-- Settles O49: the two programs have the same words, so the two runs differ in the program alone. -/
theorem trailingBytesIgnored : Obligations.TrailingBytesIgnored := by
  refine ⟨fun p y z n hp hy hz => ?_, fun p y s hp hy hprog hs hpc => ?_⟩
  · intro t u
    have hu : u = { t with prog := p ++ z } :=
      transitions_withProg (s := State.reset.startRun (p ++ y)) (sameWords_append hp hy hz) n
    rw [hu]
    exact ⟨rfl, rfl, rfl⟩
  · exact step_of_le_pc hs (by rw [hprog, length_append_div hp hy, hpc])

end Sys2Proof.Machine
end

section
/-! SUPPORT. Result extraction (40_run_loop R84 to R86). -/

namespace Sys2Proof.Machine

theorem cellRecords_eq_map (m : Memory) (a n : Nat) :
    cellRecords m a n = (List.range' a n).map fun x => (x, Memory.read m x) := by
  induction n generalizing a with
  | zero => rfl
  | succ n ih => rw [cellRecords, ih, List.range'_succ, List.map_cons]

theorem extract_of_badRange {first last : Nat} (h : 1023 < last ∨ last < first) (s : State) :
    s.extract first last = .invalidRange := if_pos h

/-- A read-out that gives records was made after the end of the run, of a range of the memory. -/
theorem extract_eq_records_iff {s : State} {first last : Nat} {l : List (Nat × Nat)} :
    s.extract first last = .records l ↔
      first ≤ last ∧ last ≤ 1023 ∧ s.status = .ended ∧ cellRecords s.mem first (last - first + 1) = l := by
  by_cases hr : 1023 < last ∨ last < first
  · rw [extract_of_badRange hr]
    exact ⟨nofun, fun ⟨h1, h2, _⟩ => by omega⟩
  · rw [State.extract, if_neg (show ¬(Config.lastCell < last ∨ last < first) from hr)]
    split
    next hs => exact ⟨fun h => ⟨by omega, by omega, hs, Extraction.records.inj h⟩, fun ⟨_, _, _, h⟩ => h ▸ rfl⟩
    next hs => exact ⟨nofun, fun ⟨_, _, h, _⟩ => absurd h hs⟩

/-- Settles O51: the records are the addresses of the range paired with what their cells hold. -/
theorem extractionGivesTheRange : Obligations.ExtractionGivesTheRange := by
  intro s first last hs hle hlast
  refine ⟨_, extract_eq_records_iff.2 ⟨hle, hlast, hs, rfl⟩, ?_, fun k h => ?_⟩
  · simp [cellRecords_eq_map]
  · simp [cellRecords_eq_map]

/-- Settles O52: a bad range is refused before the status is looked at. -/
theorem extractionRefusesBadRange : Obligations.ExtractionRefusesBadRange := by
  intro s first last hr
  rw [extract_of_badRange hr]
  exact ⟨nofun, fun _ => rfl⟩

/-- Settles O53: records are given in an ended state only. -/
theorem extractionNeedsTheEnd : Obligations.ExtractionNeedsTheEnd := by
  intro s first last l hs h
  obtain ⟨-, -, hended, -⟩ := extract_eq_records_iff.1 h
  exact hs hended

end Sys2Proof.Machine
end

section
/-! SUPPORT. `ImmediateStore` (41_immediate_store R87 to R90). -/

namespace Sys2Proof.Machine

/-- An instruction that ends in one write and the advance of the cursor stores to that cell and leaves the rest as before. -/
theorem stores_of_exec {i : Instr} {s : State} {a v : Nat} (h : exec i s = .next (s.memWrite a v).advance) :
    Stores i s a v := ⟨_, h, rfl, rfl, rfl, Memory.read_write s.mem a v⟩

theorem exec_immediateStore_inRange {b : FieldB} (hb : b.toNat ≤ 1023) (c : FieldC) (d : FieldD) (s : State) :
    exec (.immediateStore b c d) s = .next (s.memWrite b.toNat c.toNat).advance :=
  storeCell_inRange 15 .bDirect b.toNat c.toNat s hb

theorem stores_immediateStore {b : FieldB} (hb : b.toNat ≤ 1023) (c : FieldC) (d : FieldD) (s : State) :
    Stores (.immediateStore b c d) s b.toNat c.toNat := stores_of_exec (exec_immediateStore_inRange hb c d s)

theorem raises_immediateStore {b : FieldB} (hb : 1023 < b.toNat) (c : FieldC) (d : FieldD) (s : State) :
    Raises (.immediateStore b c d) s 15 .bDirect b.toNat := storeCell_outOfRange 15 .bDirect b.toNat c.toNat s hb

/-- R90: `0x400F` is the smallest word of opcode 15 whose field B is out of range. -/
theorem le_toNat_of_immediateStore_outOfRange {w : Word} (ha : wordA w = 15) (hb : 1023 < (wordB w).toNat) :
    0x400F ≤ w.toNat := by
  have hlow : w.toNat % 16 = 15 := by rw [← wordA_toNat, ha]; rfl
  rw [wordB_toNat] at hb
  omega

/-- Settles O28: the one range check decides between the store and the fault; the worked example is a store to cell 5. -/
theorem immediateStoreEffect : Obligations.ImmediateStoreEffect := by
  have hexample : decode (encodeFields 15 5 42 0) = .immediateStore 5 42 0 := by decide
  refine ⟨fun w => decode_of_wordA, fun b c d s hb => stores_immediateStore hb c d s,
    fun b c d s hb => raises_immediateStore hb c d s, ⟨by decide, by decide, fun s => ?_⟩,
    by decide, fun w => le_toNat_of_immediateStore_outOfRange⟩
  rw [hexample]
  exact stores_immediateStore (b := 5) (by decide) 42 0 s

/-- Settles O29: neither the meaning nor the check list mentions field D or the memory, and writing the same value twice is
writing it once. -/
theorem immediateStoreRepeats : Obligations.ImmediateStoreRepeats := by
  refine ⟨fun _ _ _ _ _ => rfl, fun b c d s t hb ht => ?_, fun _ _ _ _ _ => rfl⟩
  rw [exec_immediateStore_inRange hb] at ht
  cases ht
  constructor
  · exact (Memory.read_write s.mem b.toNat c.toNat b.toNat).trans (if_pos rfl)
  · rw [exec_immediateStore_inRange hb]
    simp only [State.memWrite, State.advance, Memory.write_write]

end Sys2Proof.Machine
end

section
/-! SUPPORT. What an instruction does, from its list of checks: with none failing it stores, else it raises the first that fails
(60_exceptions R121). -/

namespace Sys2Proof.Machine

variable {i : Instr} {s t : State} {r : Role} {n x v : Nat} {l : List (Role × Nat)} {o : Option (Role × Nat)}

/-- A check that passes leaves the answer to the checks after it. -/
theorem firstFailing_cons_inRange (h : n ≤ 1023) (hl : firstFailing l = o) : firstFailing ((r, n) :: l) = o :=
  (if_neg (Nat.not_lt.2 h)).trans hl

theorem firstFailing_cons_outOfRange (h : 1023 < n) : firstFailing ((r, n) :: l) = some (r, n) := if_pos h

theorem stores_of_faultOf_none (hf : faultOf i s.mem = none) (hx : cellStored i s.mem = some x) :
    Stores i s x (valueStored i s.mem) :=
  stores_of_exec (by rw [exec_of_faultOf_none hf, completed, hx])

theorem raises_of_faultOf_some (hf : faultOf i s.mem = some (r, n)) : Raises i s (opcodeOf i) r n :=
  exec_of_faultOf_some hf

/-- After a store the cell stored to holds the value. -/
theorem Stores.read_stored (hs : Stores i s x v) (ht : exec i s = .next t) : Memory.read t.mem x = v := by
  obtain ⟨u, hu, -, -, -, hread⟩ := hs
  cases hu.symm.trans ht
  exact (hread x).trans (if_pos rfl)

end Sys2Proof.Machine
end

section
/-! SUPPORT. `IndirectLoad`, which checks `c`, the pointer in cell `c`, and `b` (42_indirect_load_store R92, R94), and
`IndirectStore`, which checks `b`, `c`, and the pointer in cell `c` (R97, R99). -/

namespace Sys2Proof.Machine

variable {b : FieldB} {c : FieldC} {s : State}

theorem stores_indirectLoad (hc : c.toNat ≤ 1023) (hp : Memory.read s.mem c.toNat ≤ 1023) (hb : b.toNat ≤ 1023)
    (d : FieldD) : Stores (.indirectLoad b c d) s b.toNat (Memory.read s.mem (Memory.read s.mem c.toNat)) :=
  stores_of_faultOf_none
    (firstFailing_cons_inRange hc <| firstFailing_cons_inRange hp <| firstFailing_cons_inRange hb rfl) rfl

theorem raises_indirectLoad_cDirect (hc : 1023 < c.toNat) (b : FieldB) (d : FieldD) (s : State) :
    Raises (.indirectLoad b c d) s 14 .cDirect c.toNat :=
  raises_of_faultOf_some <| firstFailing_cons_outOfRange hc

theorem raises_indirectLoad_ptrViaC (hc : c.toNat ≤ 1023) (hp : 1023 < Memory.read s.mem c.toNat) (b : FieldB)
    (d : FieldD) : Raises (.indirectLoad b c d) s 14 .ptrViaC (Memory.read s.mem c.toNat) :=
  raises_of_faultOf_some <| firstFailing_cons_inRange hc <| firstFailing_cons_outOfRange hp

theorem raises_indirectLoad_bDirect (hc : c.toNat ≤ 1023) (hp : Memory.read s.mem c.toNat ≤ 1023) (hb : 1023 < b.toNat)
    (d : FieldD) : Raises (.indirectLoad b c d) s 14 .bDirect b.toNat :=
  raises_of_faultOf_some <| firstFailing_cons_inRange hc <| firstFailing_cons_inRange hp <| firstFailing_cons_outOfRange hb

theorem stores_indirectStore (hb : b.toNat ≤ 1023) (hc : c.toNat ≤ 1023) (hp : Memory.read s.mem c.toNat ≤ 1023)
    (d : FieldD) : Stores (.indirectStore b c d) s (Memory.read s.mem c.toNat) (Memory.read s.mem b.toNat) :=
  stores_of_faultOf_none
    (firstFailing_cons_inRange hb <| firstFailing_cons_inRange hc <| firstFailing_cons_inRange hp rfl) rfl

theorem raises_indirectStore_bDirect (hb : 1023 < b.toNat) (c : FieldC) (d : FieldD) (s : State) :
    Raises (.indirectStore b c d) s 8 .bDirect b.toNat :=
  raises_of_faultOf_some <| firstFailing_cons_outOfRange hb

theorem raises_indirectStore_cDirect (hb : b.toNat ≤ 1023) (hc : 1023 < c.toNat) (d : FieldD) (s : State) :
    Raises (.indirectStore b c d) s 8 .cDirect c.toNat :=
  raises_of_faultOf_some <| firstFailing_cons_inRange hb <| firstFailing_cons_outOfRange hc

theorem raises_indirectStore_ptrViaC (hb : b.toNat ≤ 1023) (hc : c.toNat ≤ 1023) (hp : 1023 < Memory.read s.mem c.toNat)
    (d : FieldD) : Raises (.indirectStore b c d) s 8 .ptrViaC (Memory.read s.mem c.toNat) :=
  raises_of_faultOf_some <| firstFailing_cons_inRange hb <| firstFailing_cons_inRange hc <| firstFailing_cons_outOfRange hp

end Sys2Proof.Machine
end

section
/-! SUPPORT. The effects of `IndirectLoad` and `IndirectStore` with their worked examples (42_indirect_load_store). -/

namespace Sys2Proof.Machine

/-- Settles O30: the checks pass up to the first address out of range. The worked example loads cell 5 through cell 7; a
literal 2000 stored in cell 7 is a pointer out of range. -/
theorem indirectLoadEffect : Obligations.IndirectLoadEffect := by
  have hexample : decode (encodeFields 14 0 7 0) = .indirectLoad 0 7 0 := by decide
  refine ⟨fun w => decode_of_wordA, fun b c d s hc hp hb => stores_indirectLoad hc hp hb d,
    fun b c d s hc => raises_indirectLoad_cDirect hc b d s, fun b c d s hc hp => raises_indirectLoad_ptrViaC hc hp b d,
    fun b c d s hc hp hb => raises_indirectLoad_bDirect hc hp hb d, ⟨by decide, by decide, fun s h7 h5 => ?_⟩,
    fun s t ht => ?_⟩
  · rw [hexample, ← h5, ← h7]
    exact stores_indirectLoad (b := 0) (c := 7) (by decide) (h7.trans_le (by decide)) (by decide) 0
  · have h7 : Memory.read t.mem 7 = 2000 :=
      (stores_immediateStore (b := 7) (by decide) 2000 0 s).read_stored ht
    rw [← h7]
    exact raises_indirectLoad_ptrViaC (c := 7) (by decide) (Nat.lt_of_lt_of_eq (by decide) h7.symm) 0 0

/-- Settles O31: the checks pass up to the first address out of range. The worked example stores cell 3 through cell 7. -/
theorem indirectStoreEffect : Obligations.IndirectStoreEffect := by
  have hexample : decode (encodeFields 8 3 7 0) = .indirectStore 3 7 0 := by decide
  refine ⟨fun w => decode_of_wordA, fun b c d s hb hc hp => stores_indirectStore hb hc hp d,
    fun b c d s hb => raises_indirectStore_bDirect hb c d s, fun b c d s hb hc => raises_indirectStore_cDirect hb hc d s,
    fun b c d s hb hc hp => raises_indirectStore_ptrViaC hb hc hp d, by decide, by decide, fun s h3 h7 => ?_⟩
  rw [hexample, ← h3, ← h7]
  exact stores_indirectStore (b := 3) (c := 7) (by decide) (by decide) (h7.trans_le (by decide)) 0

end Sys2Proof.Machine
end

section
/-! SUPPORT. `ShiftStore`: the shift law (43_shift_store R103), and the effect (R102) after the checks of `c`, `d`, `b`, and the
pointer in cell `b` (R106). -/

namespace Sys2Proof.Machine

variable {b : FieldB} {c : FieldC} {d : FieldD} {s : State}

theorem shiftRight_eq_div_pow (v n : Nat) : shiftRight v n = v / 2 ^ n := Nat.shiftRight_eq_div_pow v n

/-- Settles O33: the shift is a quotient, which is at most the dividend. -/
theorem shiftLaw : Obligations.ShiftLaw := by
  refine ⟨fun v n => ⟨shiftRight_eq_div_pow v n, ?_⟩, by decide, by decide⟩
  rw [shiftRight_eq_div_pow]
  exact Nat.div_le_self v (2 ^ n)

theorem stores_shiftStore (hc : c.toNat ≤ 1023) (hd : d.toNat ≤ 1023) (hb : b.toNat ≤ 1023)
    (hp : Memory.read s.mem b.toNat ≤ 1023) :
    Stores (.shiftStore b c d) s (Memory.read s.mem b.toNat)
      (Memory.read s.mem c.toNat / 2 ^ Memory.read s.mem d.toNat) := by
  rw [← shiftRight_eq_div_pow]
  exact stores_of_faultOf_none
    (firstFailing_cons_inRange hc <| firstFailing_cons_inRange hd <| firstFailing_cons_inRange hb <|
      firstFailing_cons_inRange hp rfl) rfl

theorem raises_shiftStore_cDirect (hc : 1023 < c.toNat) (b : FieldB) (d : FieldD) (s : State) :
    Raises (.shiftStore b c d) s 12 .cDirect c.toNat :=
  raises_of_faultOf_some <| firstFailing_cons_outOfRange hc

theorem raises_shiftStore_dDirect (hc : c.toNat ≤ 1023) (hd : 1023 < d.toNat) (b : FieldB) (s : State) :
    Raises (.shiftStore b c d) s 12 .dDirect d.toNat :=
  raises_of_faultOf_some <| firstFailing_cons_inRange hc <| firstFailing_cons_outOfRange hd

theorem raises_shiftStore_bDirect (hc : c.toNat ≤ 1023) (hd : d.toNat ≤ 1023) (hb : 1023 < b.toNat) (s : State) :
    Raises (.shiftStore b c d) s 12 .bDirect b.toNat :=
  raises_of_faultOf_some <| firstFailing_cons_inRange hc <| firstFailing_cons_inRange hd <| firstFailing_cons_outOfRange hb

theorem raises_shiftStore_ptrViaB (hc : c.toNat ≤ 1023) (hd : d.toNat ≤ 1023) (hb : b.toNat ≤ 1023)
    (hp : 1023 < Memory.read s.mem b.toNat) :
    Raises (.shiftStore b c d) s 12 .ptrViaB (Memory.read s.mem b.toNat) :=
  raises_of_faultOf_some <| firstFailing_cons_inRange hc <| firstFailing_cons_inRange hd <|
    firstFailing_cons_inRange hb <| firstFailing_cons_outOfRange hp

/-- The worked example of R102: 40 in cell 10, shifted right by the 1 in cell 11, goes to cell 0, which cell 20 points to. -/
theorem stores_shiftStore_example (h20 : Memory.read s.mem 20 = 0) (h10 : Memory.read s.mem 10 = 40)
    (h11 : Memory.read s.mem 11 = 1) : Stores (.shiftStore 20 10 11) s 0 20 := by
  have h := stores_shiftStore (b := 20) (c := 10) (d := 11) (s := s) (by decide) (by decide) (by decide)
    (h20.trans_le (by decide))
  change Stores _ s (Memory.read s.mem 20) (Memory.read s.mem 10 / 2 ^ Memory.read s.mem 11) at h
  rwa [h20, h10, h11] at h

/-- Settles O32: the checks pass up to the first address out of range, and the amount in cell `d` is not one of the addresses
checked. -/
theorem shiftStoreEffect : Obligations.ShiftStoreEffect := by
  have hexample : decode (encodeFields 12 20 10 11) = .shiftStore 20 10 11 := by decide
  refine ⟨fun w => decode_of_wordA, fun b c d s => stores_shiftStore,
    fun b c d s hc => raises_shiftStore_cDirect hc b d s, fun b c d s hc hd => raises_shiftStore_dDirect hc hd b s,
    fun b c d s hc hd hb => raises_shiftStore_bDirect hc hd hb s, fun b c d s => raises_shiftStore_ptrViaB,
    by decide, by decide, fun s h20 h10 h11 => ?_⟩
  rw [hexample]
  exact stores_shiftStore_example h20 h10 h11

end Sys2Proof.Machine
end

section
/-! SUPPORT. The twelve undefined opcode values do nothing but advance the cursor (44_undefined_opcodes R110, R111), and a program
of zero bytes is a program of them. -/

namespace Sys2Proof.Machine

/-- R110, R111 on words: with an opcode value that has no meaning in field A, no other bit of the word matters. -/
theorem exec_decode_undefined {w : Word} (hw : wordA w ∈ ([0, 1, 2, 3, 4, 5, 6, 7, 9, 10, 11, 13] : List Opcode)) (s : State) :
    exec (decode w) s = .next s.advance := by
  rw [decode_of_wordA rfl]
  exact exec_instrOf_undefined hw _ _ _ s

/-- The constructors of the undefined instructions are what their opcode values select. -/
theorem mem_map_instrOf_of_mem_undefined {mk : FieldB → FieldC → FieldD → Instr}
    (h : mk ∈ [Instr.undefined0, Instr.undefined1, Instr.undefined2, Instr.undefined3, Instr.undefined4, Instr.undefined5,
      Instr.undefined6, Instr.undefined7, Instr.undefined9, Instr.undefined10, Instr.undefined11, Instr.undefined13]) :
    mk ∈ ([0, 1, 2, 3, 4, 5, 6, 7, 9, 10, 11, 13] : List Opcode).map instrOf := h

theorem wordAt_of_zeros {p : List Byte} (hp : ∀ y ∈ p, y = 0) (k : Nat) : wordAt p k = 0 := by
  have hbyte (i : Nat) : p.getD i 0 = 0 := by
    rw [List.eq_replicate_of_mem hp, List.getD_eq_getElem?_getD, List.getElem?_getD_replicate_default_eq]
  simp only [wordAt, hbyte]
  rfl

/-- Settles O35: an undefined constructor is the instruction of its opcode value, which only advances whatever the fields hold; a
word of zero bytes has opcode value 0, wherever it stands. -/
theorem undefinedIsNoOp : Obligations.UndefinedIsNoOp := by
  refine ⟨fun mk hmk b c d s => ?_, fun w s hw => exec_decode_undefined hw s, ⟨by decide, by decide⟩, by decide, by decide,
    fun s hs hpc hzero => ?_⟩
  · obtain ⟨a, ha, rfl⟩ := List.mem_map.mp (mem_map_instrOf_of_mem_undefined hmk)
    exact exec_instrOf_undefined ha b c d s
  · rw [step_of_pc_lt hs hpc, wordAt_of_zeros hzero]
    exact exec_decode_undefined (by decide) s

end Sys2Proof.Machine
end

section
/-! SUPPORT. The list of checks decides whether an instruction faults, which check is reported, and how large the address can be
(60_exceptions R121). -/

namespace Sys2Proof.Machine

variable {i : Instr} {m : Memory} {r : Role} {n : Nat} {l : List (Role × Nat)}

/-- No check of a list fails exactly when every address is that of a cell. -/
theorem firstFailing_eq_none_iff : firstFailing l = none ↔ ∀ q ∈ l, q.2 ≤ 1023 := by
  induction l with
  | nil => exact ⟨nofun, fun _ => rfl⟩
  | cons c l ih =>
    rw [List.forall_mem_cons]
    rcases Nat.lt_or_ge 1023 c.2 with hc | hc
    · rw [firstFailing_cons_outOfRange hc]
      exact ⟨nofun, fun ⟨hle, _⟩ => absurd hle (Nat.not_le.2 hc)⟩
    · rw [firstFailing_cons_inRange hc rfl, ih]
      exact (and_iff_right hc).symm

/-- The check reported is one of the list, and its address is out of range. -/
theorem mem_of_firstFailing_eq_some (h : firstFailing l = some (r, n)) : (r, n) ∈ l ∧ 1023 < n := by
  induction l with
  | nil => cases h
  | cons c l ih =>
    rcases Nat.lt_or_ge 1023 c.2 with hc | hc
    · rw [firstFailing_cons_outOfRange hc] at h
      cases h
      exact ⟨List.mem_cons_self, hc⟩
    · rw [firstFailing_cons_inRange hc rfl] at h
      exact ⟨List.mem_cons_of_mem c (ih h).1, (ih h).2⟩

/-- R121, first table: a field's address fits the field, and a pointer's fits a cell. -/
theorem le_largestAddr_of_mem_checksOf (hm : CellsBelow 16384 m) : ∀ q ∈ checksOf i m, q.2 ≤ largestAddr q.1 := by
  have hb (b : FieldB) : b.toNat ≤ 1048575 := Nat.le_of_lt_succ b.isLt
  have hc (c : FieldC) : c.toNat ≤ 16383 := Nat.le_of_lt_succ c.isLt
  have hd (d : FieldD) : d.toNat ≤ 65535 := Nat.le_of_lt_succ d.isLt
  have hp (a : Nat) : Memory.read m a ≤ 16383 := Nat.le_of_lt_succ (hm a)
  cases i with
  | immediateStore b c d => simp [checksOf, largestAddr, hb]
  | indirectLoad b c d => simp [checksOf, largestAddr, hb, hc, hp]
  | indirectStore b c d => simp [checksOf, largestAddr, hb, hc, hp]
  | shiftStore b c d => simp [checksOf, largestAddr, hb, hc, hd, hp]
  | _ => nofun

/-- The largest of the bounds is that of field `b`. -/
theorem largestAddr_le (r : Role) : largestAddr r ≤ 1048575 := by
  cases r <;> decide

theorem lt_of_faultOf_some (h : faultOf i m = some (r, n)) : 1023 < n := (mem_of_firstFailing_eq_some h).2

theorem le_largestAddr_of_faultOf_some (hm : CellsBelow 16384 m) (h : faultOf i m = some (r, n)) : n ≤ largestAddr r :=
  le_largestAddr_of_mem_checksOf hm _ (mem_of_firstFailing_eq_some h).1

/-- R121, second table: only the four instructions that have checks can fault. -/
theorem opcodeOf_mem_of_faultOf_some (h : faultOf i m = some (r, n)) : opcodeOf i ∈ ([15, 14, 8, 12] : List Opcode) := by
  cases i with
  | immediateStore b c d => exact .head _
  | indirectLoad b c d => exact .tail _ (.head _)
  | indirectStore b c d => exact .tail _ (.tail _ (.head _))
  | shiftStore b c d => exact .tail _ (.tail _ (.tail _ (.head _)))
  | _ => cases h

end Sys2Proof.Machine
end

section
/-! SUPPORT. When an instruction faults (60_exceptions R121), and that a fault is precise (R122, R123) and terminal (R125). -/

namespace Sys2Proof.Machine

/-- Settles O26: an instruction completes or raises its first failing check, which is one of the addresses its row lists. -/
theorem firstFailingCheckDecides : Obligations.FirstFailingCheckDecides :=
  ⟨fun i s hf => ⟨_, exec_of_faultOf_none hf, completed_status i s⟩, fun _ _ _ _ => raises_of_faultOf_some,
    fun _ _ => firstFailing_eq_none_iff,
    fun _ _ _ _ hm hf => ⟨lt_of_faultOf_some hf, le_largestAddr_of_faultOf_some hm hf⟩⟩

/-- A step that leads to `Faulted` raised the first failing check of the word at the cursor. -/
theorem step_faulted {s t : State} {info : FaultInfo} (h : step s = .next t) (ht : t.status = .faulted info) :
    t = { s with status := .faulted info } ∧ info.index = s.pc ∧ info.opcode = opcodeOf (decode (wordAt s.prog s.pc)) ∧
      faultOf (decode (wordAt s.prog s.pc)) s.mem = some (info.role, info.addr) := by
  obtain ⟨hs, ⟨-, -, rfl⟩ | ⟨-, rfl⟩ | ⟨-, r, n, hf, rfl⟩⟩ := step_next_cases h
  · rw [completed_status, hs] at ht
    cases ht
  · cases ht
  · cases ht
    exact ⟨rfl, rfl, rfl, hf⟩

/-- Settles O27: the step raised the first failing check of its word, which bounds the address and leaves four opcode values;
the state it answers is not running. -/
theorem faultIsPrecise : Obligations.FaultIsPrecise := by
  intro s t info h ht
  obtain ⟨hframe, hindex, hopcode, hfault⟩ := step_faulted h ht
  have hword : info.opcode = wordA (wordAt s.prog s.pc) := hopcode.trans (opcodeOf_instrOf _ _ _ _)
  have hmem : info.opcode ∈ ([15, 14, 8, 12] : List Opcode) := hopcode ▸ opcodeOf_mem_of_faultOf_some hfault
  exact ⟨hframe, hindex, hword, hmem, hfault, lt_of_faultOf_some hfault,
    fun hm => (le_largestAddr_of_faultOf_some hm hfault).trans (largestAddr_le _),
    step_ne_next_of_not_running (by simp [ht])⟩

/-- Settles O24: an instruction completes, which keeps the status, or raises a fault of its own; the other transitions and the
read-out need another status. -/
theorem faultIsTerminal : Obligations.FaultIsTerminal := by
  intro s info hs
  refine ⟨step_ne_next_of_not_running (by simp [hs]), fun i t h => ?_,
    fun first last l => extractionNeedsTheEnd s first last l (by simp [hs]), startRun_status s⟩
  rcases exec_next h with ⟨-, rfl⟩ | ⟨r, n, -, rfl⟩
  · exact ⟨info, (completed_status i s).trans hs⟩
  · exact ⟨_, raiseOutOfBounds_status s _ r n⟩

end Sys2Proof.Machine
end

section
/-! SUPPORT. The start of a run: a fresh machine at the first word of the program presented (70_reset R141). -/

namespace Sys2Proof.Machine

/-- R141: execution begins with word number 0 of the program. -/
theorem step_startRun_of_le_length (s : State) {p : List Byte} (h : 8 ≤ p.length) :
    step (s.startRun p) = exec (decode (wordAt p 0)) (s.startRun p) :=
  step_of_pc_lt (startRun_status s p) (by rw [startRun_pc, startRun_prog]; omega)

/-- Settles O1: reset leaves no cell listed, and the cursor of a new run stands on word 0, which its first 8 bytes make up. -/
theorem resetLeavesFreshState : Obligations.ResetLeavesFreshState := by
  refine ⟨⟨Memory.read_nil, reset_pc, reset_status⟩,
    fun s p => ⟨Memory.read_nil, startRun_pc s p, startRun_status s p⟩,
    fun s y0 y1 y2 y3 y4 y5 y6 y7 rest => ?_⟩
  exact step_startRun_of_le_length s (Nat.le_add_left 8 rest.length)

end Sys2Proof.Machine
end

section
/-! SUPPORT. Packing and decoding undo each other (30_encoding sections 3 and 4): on instructions, on words, on bytes. -/

namespace Sys2Proof

/-- R56: every instruction is the one that its opcode value and its operand fields select. -/
theorem fieldsSelect_all (i : Instr) : Laws.FieldsSelect.Statement i := by
  cases i <;> exact Laws.FieldsSelect.of_instrOf (fun _ _ _ => rfl) _ _ _

theorem decode_encode (i : Instr) : decode (encode i) = i := by
  rw [decode, encode, decodeFields_encodeFields]
  exact fieldsSelect_all i

theorem decodeBytes_bytesLe_append (w : Word) (rest : List Byte) :
    decodeBytes (bytesLe w ++ rest) = .instr (decode w) rest :=
  congrArg (fun u => DecodeResult.instr (decode u) rest) (wordLe_byteOf w)

/-- Settles O8: decoding gives back the fields, which select the instruction, and the eight bytes read back as the word. -/
theorem instrRoundTrip : Obligations.InstrRoundTrip := by
  refine fun i => ⟨decode_encode i, fun rest => ?_⟩
  rw [encodeBytes, decodeBytes_bytesLe_append, decode_encode]

/-- The instruction that an opcode value and operand fields select has them as its fields. -/
theorem instrOf_fields (a : Opcode) (b : FieldB) (c : FieldC) (d : FieldD) :
    (instrOf a b c d).fields = ⟨a.toNat, b.toNat, c.toNat, d.toNat⟩ := by
  obtain ⟨a, ha⟩ := a
  interval_cases a <;> rfl

/-- A word is the sum of its four slices and of its unused bits, which re-encoding drops. -/
theorem encode_decode_toNat (w : Word) : (encode (decode w)).toNat = w.toNat % 2 ^ 54 := by
  simp only [encode, decode, instrOf_fields, encodeFields_toNat, decodeFields, wordA_toNat, wordB_toNat, wordC_toNat,
    wordD_toNat]
  omega

/-- Settles O9: the re-encoded word is the remainder by `2 ^ 54`. -/
theorem reverseRoundTrip : Obligations.ReverseRoundTrip := by
  intro w
  constructor
  · exact BitVec.eq_of_toNat_eq ((encode_decode_toNat w).trans (clearUnused_toNat w).symm)
  · rw [← BitVec.toNat_inj, encode_decode_toNat, Nat.mod_eq_iff_lt (by decide)]

/-- Settles O10: eight bytes are the digits to base 256 of the word they make up. -/
theorem byteSerialisationInverse : Obligations.ByteSerialisationInverse := by
  refine ⟨wordLe_byteOf, fun y0 y1 y2 y3 y4 y5 y6 y7 => ?_⟩
  simp only [bytesLe, List.cons.injEq, ← BitVec.toNat_inj, byteOf_toNat, wordLe_toNat, Nat.reduceMul, Nat.reducePow, and_true]
  omega

end Sys2Proof
end

section
/-! SUPPORT. The encoded word: a sum of fields (30_encoding section 2), its bytes, and its unused bits (section 1). -/

namespace Sys2Proof

/-- Settles O3: the fields do not overlap. -/
theorem encodeIsSumOfFields : Obligations.EncodeIsSumOfFields := encodeFields_toNat

/-- Settles O11: byte `k` is digit `k` to base 256 of the sum of the fields. -/
theorem encodedByteLayout : Obligations.EncodedByteLayout := by
  intro a b c d
  have ha := a.isLt
  have hb := b.isLt
  have hc := c.isLt
  have hd := d.isLt
  simp only [bytesLe, List.map_cons, List.map_nil, List.cons.injEq, byteOf_toNat, encodeFields_toNat, Nat.reduceMul,
    Nat.reducePow, and_true] at ha hb hc hd ⊢
  omega

/-- Settles O12: the fields lie below bit 54, for the encoder and for the decoder. -/
theorem unusedBitsIgnored : Obligations.UnusedBitsIgnored :=
  ⟨encodeFields_toNat_lt, fun w => ⟨(decodeFields_clearUnused w).symm, (decode_clearUnused w).symm⟩⟩

/-- Settles O15, by evaluation of the decoder. -/
theorem writtenOutWordsDecode : Obligations.WrittenOutWordsDecode :=
  ⟨by decide, by decide, by decide, by decide, by decide, by decide⟩

end Sys2Proof
end

section
/-! SUPPORT. The memory an instruction leaves: what it reads as, that it lists only cells that exist, and how large its cells
are (10_state section 2, 20_memory section 5). -/

namespace Sys2Proof.Machine

variable {i : Instr} {m : Memory} {s t : State} {x a n : Nat}

@[simp] theorem completed_mem (i : Instr) (s : State) : (completed i s).mem = storedMem i s.mem := by rw [completed_eq]

/-- 20_memory R31, the write column: the cell it names holds the value stored, every other cell what it held. -/
theorem read_storedMem (i : Instr) (m : Memory) (x : Nat) :
    Memory.read (storedMem i m) x = if cellStored i m = some x then valueStored i m else Memory.read m x := by
  unfold storedMem
  cases cellStored i m with
  | none => rfl
  | some y => simp only [Memory.read_write, Option.some.injEq, eq_comm]

theorem read_storedMem_of_ne (h : cellStored i m ≠ some x) : Memory.read (storedMem i m) x = Memory.read m x :=
  (read_storedMem i m x).trans (if_neg h)

/-- The address of the cell stored to is one of those the instruction checks. -/
theorem exists_role_mem_checksOf_of_cellStored (h : cellStored i m = some a) : ∃ r, (r, a) ∈ checksOf i m := by
  cases i with
  | immediateStore b c d => cases h; exact ⟨.bDirect, by simp [checksOf]⟩
  | indirectLoad b c d => cases h; exact ⟨.bDirect, by simp [checksOf]⟩
  | indirectStore b c d => cases h; exact ⟨.ptrViaC, by simp [checksOf]⟩
  | shiftStore b c d => cases h; exact ⟨.ptrViaB, by simp [checksOf]⟩
  | _ => cases h

theorem cellStored_le_of_faultOf_none (hf : faultOf i m = none) (h : cellStored i m = some a) : a ≤ 1023 := by
  obtain ⟨r, hr⟩ := exists_role_mem_checksOf_of_cellStored h
  exact firstFailing_eq_none_iff.1 hf _ hr

/-- An instruction that passes its checks keeps the canonical form. -/
theorem wf_storedMem (hm : Memory.wf m = true) (hf : faultOf i m = none) : Memory.wf (storedMem i m) = true := by
  unfold storedMem
  split
  next x hx => exact Memory.wf_write m x _ hm (Nat.lt_succ_of_le (cellStored_le_of_faultOf_none hf hx))
  next => exact hm

/-- 10_state R14: a value stored is a 14-bit literal, the value of a cell, or such a value shifted right. -/
theorem valueStored_lt (hn : 16384 ≤ n) (hm : CellsBelow n m) (i : Instr) : valueStored i m < n := by
  cases i with
  | immediateStore b c d => exact c.isLt.trans_le hn
  | indirectLoad b c d => exact hm _
  | indirectStore b c d => exact hm _
  | shiftStore b c d => exact (shiftLaw.1 _ _).2.trans_lt (hm _)
  | _ => exact (show 0 < 16384 by decide).trans_le hn

theorem cellsBelow_storedMem (hn : 16384 ≤ n) (hm : CellsBelow n m) (i : Instr) : CellsBelow n (storedMem i m) := by
  intro x
  rw [read_storedMem]
  split
  · exact valueStored_lt hn hm i
  · exact hm x

/-- Everything a step can do to the memory: nothing, or what the word at the cursor stores after passing its checks. -/
theorem step_mem (h : step s = .next t) : t.mem = s.mem ∨
    (s.status = .running ∧ s.pc < s.prog.length / 8 ∧ faultOf (decode (wordAt s.prog s.pc)) s.mem = none ∧
      t.mem = storedMem (decode (wordAt s.prog s.pc)) s.mem) := by
  obtain ⟨hs, ⟨hpc, hf, rfl⟩ | ⟨-, rfl⟩ | ⟨-, r, n, -, rfl⟩⟩ := step_next_cases h
  · exact .inr ⟨hs, hpc, hf, completed_mem _ s⟩
  · exact .inl rfl
  · exact .inl rfl

theorem step_wf (hm : Memory.wf s.mem = true) (h : step s = .next t) : Memory.wf t.mem = true := by
  rcases step_mem h with ht | ⟨-, -, hf, ht⟩ <;> rw [ht]
  · exact hm
  · exact wf_storedMem hm hf

theorem step_cellsBelow (hn : 16384 ≤ n) (hm : CellsBelow n s.mem) (h : step s = .next t) : CellsBelow n t.mem := by
  rcases step_mem h with ht | ⟨-, -, -, ht⟩ <;> rw [ht]
  · exact hm
  · exact cellsBelow_storedMem hn hm _

/-- A canonical memory lists no address above 1023. -/
theorem Memory.read_eq_zero_of_wfFrom {lo : Nat} (hm : Memory.wfFrom lo m = true) (ha : 1023 < a) : Memory.read m a = 0 := by
  induction m generalizing lo with
  | nil => rfl
  | cons p m ih =>
    obtain ⟨-, hk, -, hm⟩ := (Memory.wfFrom_cons lo p.1 p.2 m).1 hm
    exact (if_neg (show p.1 ≠ a by omega)).trans (ih hm)

end Sys2Proof.Machine
end

section
/-! SUPPORT. What every step keeps: the memory's form, the cells' width, and the invariant of the machine, which holds at
reset. -/

namespace Sys2Proof.Machine

/-- Settles O43: a step stores to a cell that exists or not at all, and a canonical memory lists no other. -/
theorem stepKeepsMemoryCanonical : Obligations.StepKeepsMemoryCanonical :=
  ⟨fun _ _ => step_wf, fun _ hm _ => Memory.read_eq_zero_of_wfFrom hm⟩

/-- Settles O44: every value stored fits 14 bits or is at most the value of a cell. -/
theorem stepKeepsCellsInWidth : Obligations.StepKeepsCellsInWidth :=
  fun _ _ _ hbits => step_cellsBelow (Nat.pow_le_pow_right (n := 2) (by decide) hbits)

/-- The clauses of the invariant that speak of a status it does not have hold of a running state. -/
theorem Inv.of_running {s : State} (hs : s.status = .running) (canonical : Memory.wf s.mem = true)
    (cells : CellsBelow 16384 s.mem) (cursor : s.pc ≤ s.prog.length / 8) : Inv s :=
  ⟨canonical, cells, cursor, fun h => by simp [hs] at h, fun _ h => by simp [hs] at h⟩

/-- Settles O45: a completed word moves the cursor past a word that is there, the end of the run comes at the number of words, and
a fault records the check that failed. -/
theorem stepKeepsInv : Obligations.StepKeepsInv := by
  intro s t hinv h
  have hwf := step_wf hinv.canonical h
  have hcells := step_cellsBelow (Nat.le_refl _) hinv.cells h
  obtain ⟨hs, ⟨hpc, -, rfl⟩ | ⟨hpc, rfl⟩ | ⟨hpc, r, n, hf, rfl⟩⟩ := step_next_cases h
  · refine .of_running ((completed_status _ s).trans hs) hwf hcells ?_
    rwa [completed_pc, completed_prog]
  · exact ⟨hwf, hcells, hinv.cursor, fun _ => hinv.cursor.antisymm hpc, fun _ => nofun⟩
  · refine ⟨hwf, hcells, hinv.cursor, nofun, fun info hinfo => ?_⟩
    cases hinfo
    exact ⟨hpc, rfl, opcodeOf_instrOf _ _ _ _, hf⟩

theorem inv_startRun (s : State) (p : List Byte) : Inv (s.startRun p) :=
  .of_running rfl rfl (fun a => (Memory.read_nil a).trans_lt (by decide)) (Nat.zero_le _)

/-- Settles O46: `State.reset` is the start of a run of the empty program. -/
theorem resetMeetsInv : Obligations.ResetMeetsInv := ⟨inv_startRun State.reset [], inv_startRun⟩

/-- Settles O42: the program after the step is the program before it, and so are its words. -/
theorem stepKeepsProgram : Obligations.StepKeepsProgram :=
  fun _ _ h => ⟨step_prog h, fun _ => by rw [step_prog h]⟩

end Sys2Proof.Machine
end

section
/-! SUPPORT. A cell keeps its value until an instruction stores to it (20_memory sections 5 and 7). -/

namespace Sys2Proof.Machine

/-- The next transition runs, without a fault, an instruction that stores to cell `x`. -/
def StoresNext (s : State) (x : Nat) : Prop :=
  s.status = .running ∧ s.pc < s.prog.length / 8 ∧ faultOf (decode (wordAt s.prog s.pc)) s.mem = none ∧
    cellStored (decode (wordAt s.prog s.pc)) s.mem = some x

theorem step_read_of_not_storesNext {s t : State} {x : Nat} (hx : ¬ StoresNext s x) (h : step s = .next t) :
    Memory.read t.mem x = Memory.read s.mem x := by
  rcases step_mem h with ht | ⟨hs, hpc, hf, ht⟩ <;> rw [ht]
  exact read_storedMem_of_ne fun hcell => hx ⟨hs, hpc, hf, hcell⟩

theorem transitions_one_read_of_not_storesNext {s : State} {x : Nat} (hx : ¬ StoresNext s x) :
    Memory.read (transitions 1 s).mem x = Memory.read s.mem x := by
  by_cases hs : s.status = .running
  · obtain ⟨t, ht⟩ := step_isNext_of_running hs
    rw [transitions_succ_of_step ht, transitions_zero]
    exact step_read_of_not_storesNext hx ht
  · rw [transitions_of_not_running hs]

/-- Settles O41, by induction on the number of transitions: the last one does not store to the cell. -/
theorem cellKeepsValueUntilStored : Obligations.CellKeepsValueUntilStored := by
  intro n s x hx
  induction n with
  | zero => rfl
  | succ n ih =>
    rw [transitions_add, transitions_one_read_of_not_storesNext (hx n (Nat.lt_succ_self n))]
    exact ih fun k hk => hx k (Nat.lt_succ_of_lt hk)

end Sys2Proof.Machine
end

section
/-! SUPPORT. The two columns of the access table (20_memory R31): the cells an instruction can change, and those its outcome
depends on. -/

namespace Sys2Proof.Machine

variable {i : Instr} {m m' : Memory}

/-- Settles O39: a completion stores to the cell of the write column, a fault changes the status alone. -/
theorem onlyTheStoredCellChanges : Obligations.OnlyTheStoredCellChanges := by
  intro i s t h
  rcases exec_next h with ⟨hf, rfl⟩ | ⟨r, n, -, rfl⟩
  · rw [completed_mem]
    exact ⟨completed_prog i s, fun x hx => read_storedMem_of_ne hx, fun hne => absurd hf hne⟩
  · exact ⟨rfl, fun _ _ => rfl, fun _ => rfl⟩

/-- The memories agree on the cells that the instruction reads. -/
def AgreeOnReads (i : Instr) (m m' : Memory) : Prop := ∀ x ∈ cellsRead i m, Memory.read m x = Memory.read m' x

theorem AgreeOnReads.checksOf_eq (h : AgreeOnReads i m m') : checksOf i m = checksOf i m' := by
  cases i with
  | indirectLoad b c d => simp only [checksOf, h c.toNat (by simp [cellsRead])]
  | indirectStore b c d => simp only [checksOf, h c.toNat (by simp [cellsRead])]
  | shiftStore b c d => simp only [checksOf, h b.toNat (by simp [cellsRead])]
  | _ => rfl

theorem AgreeOnReads.faultOf_eq (h : AgreeOnReads i m m') : faultOf i m = faultOf i m' :=
  congrArg firstFailing h.checksOf_eq

theorem AgreeOnReads.cellStored_eq (h : AgreeOnReads i m m') : cellStored i m = cellStored i m' := by
  cases i with
  | indirectStore b c d => simp only [cellStored, h c.toNat (by simp [cellsRead])]
  | shiftStore b c d => simp only [cellStored, h b.toNat (by simp [cellsRead])]
  | _ => rfl

theorem AgreeOnReads.valueStored_eq (h : AgreeOnReads i m m') : valueStored i m = valueStored i m' := by
  cases i with
  | indirectLoad b c d =>
    simp only [valueStored, ← h c.toNat (by simp [cellsRead]), h (Memory.read m c.toNat) (by simp [cellsRead])]
  | indirectStore b c d => exact h b.toNat (by simp [cellsRead])
  | shiftStore b c d =>
    simp only [valueStored, h c.toNat (by simp [cellsRead]), h d.toNat (by simp [cellsRead])]
  | _ => rfl

/-- Settles O40: checks, cell stored to and value stored are the same on both memories, and so is the completion or the fault. -/
theorem onlyTheReadCellsMatter : Obligations.OnlyTheReadCellsMatter := by
  intro i s s' t t' hpc hstatus hprog (hreads : AgreeOnReads i s.mem s'.mem) ht ht'
  have hcell := hreads.cellStored_eq
  cases hf : faultOf i s.mem with
  | none =>
    rw [exec_of_faultOf_none hf] at ht
    rw [exec_of_faultOf_none (hreads.faultOf_eq ▸ hf)] at ht'
    cases ht
    cases ht'
    simp only [completed_pc, completed_status, completed_prog, completed_mem, read_storedMem]
    refine ⟨by rw [hpc], hstatus, hprog, hcell, fun _ x hx => ?_⟩
    rw [if_pos hx, if_pos (hcell ▸ hx), hreads.valueStored_eq]
  | some c =>
    rw [exec_of_faultOf_some hf] at ht
    rw [exec_of_faultOf_some (hreads.faultOf_eq ▸ hf)] at ht'
    cases ht
    cases ht'
    simp only [raiseOutOfBounds_pc, raiseOutOfBounds_status, raiseOutOfBounds_prog]
    exact ⟨hpc, by rw [hpc], hprog, hcell, nofun⟩

end Sys2Proof.Machine
end

section
/-! SUPPORT. The aliasing tables (42_indirect_load_store sections 1 and 2, 43_shift_store): what a store is when its operands
name the same cell. -/

namespace Sys2Proof.Machine

variable {i : Instr} {s : State} {a a' v v' : Nat}

theorem Stores.congr (h : Stores i s a v) (ha : a = a') (hv : v = v') : Stores i s a' v' := ha ▸ hv ▸ h

/-- Storing to a cell what it already holds changes no cell. -/
theorem Stores.read_unchanged (h : Stores i s a v) (hv : v = Memory.read s.mem a) :
    ∃ t, exec i s = .next t ∧ ∀ x, Memory.read t.mem x = Memory.read s.mem x := by
  obtain ⟨t, ht, -, -, -, hread⟩ := h
  refine ⟨t, ht, fun x => (hread x).trans ?_⟩
  split
  next hx => rw [hv, hx]
  next => rfl

/-- Settles O37: each row is the effect of the instruction with the row's equation put in. -/
theorem indirectAliasing : Obligations.IndirectAliasing := by
  refine ⟨fun b c d s hbc hc hp => ?_, fun b c d s hp hc hb => ?_, fun b c d s hp hc hb => ?_, fun b c d s hp hc hb => ?_,
    fun b c d s hp hc hb => ?_, fun b c d s hbc hc hp => ?_⟩
  · exact (stores_indirectLoad hc hp (hbc.trans_le hc) d).congr hbc rfl
  · exact (stores_indirectLoad hc (hp.trans_le hc) hb d).congr rfl (by rw [hp, hp])
  · exact (stores_indirectLoad hc (hp.trans_le hb) hb d).read_unchanged (by rw [hp])
  · exact (stores_indirectStore hb hc (hp.trans_le hc) d).congr hp rfl
  · exact (stores_indirectStore hb hc (hp.trans_le hb) d).read_unchanged (by rw [hp])
  · exact (stores_indirectStore (hbc.trans_le hc) hc hp d).congr rfl (by rw [hbc])

theorem div_two_pow_self (v : Nat) : v / 2 ^ v = 0 := Nat.div_eq_of_lt Nat.lt_two_pow_self

/-- Settles O38: each row is the effect of the instruction with the row's equations put in. -/
theorem shiftAliasing : Obligations.ShiftAliasing := by
  intro b c d s hc hd hb hp v n t
  have h : Stores (.shiftStore b c d) s t (v / 2 ^ n) := stores_shiftStore hc hd hb hp
  refine ⟨fun hcd => ?_, fun ht => h.congr ht rfl, fun ht => h.congr ht rfl, fun ht => h.congr ht rfl, fun hbc => ?_,
    fun hbd => ?_, fun hbc hbd => ?_⟩
  · have hv : v = n := congrArg (Memory.read s.mem) hcd
    exact h.congr rfl (hv ▸ div_two_pow_self v)
  · have ht : t = v := congrArg (Memory.read s.mem) hbc
    exact h.congr rfl (by rw [ht])
  · have ht : t = n := congrArg (Memory.read s.mem) hbd
    exact h.congr rfl (by rw [ht])
  · have hv : v = n := congrArg (Memory.read s.mem) (hbc.symm.trans hbd)
    exact h.congr rfl (hv ▸ div_two_pow_self v)

/-- Settles O34: a cell holds less than `2 ^ 14`. -/
theorem shiftCornerCases : Obligations.ShiftCornerCases := by
  refine ⟨fun v n hv hn => ?_, fun _ => Nat.shiftRight_zero, Nat.zero_shiftRight, by decide, by decide, by decide⟩
  have hpow : 2 ^ 14 ≤ 2 ^ n := Nat.pow_le_pow_right (by decide) hn
  rw [shiftRight_eq_div_pow]
  exact Nat.div_eq_of_lt (by omega)

end Sys2Proof.Machine
end

section
/-! SUPPORT. When a transition is enabled and what it runs (40_run_loop section 1), short programs (section 4), reset
(70_reset section 1), and the unused field D (30_encoding section 5). -/

namespace Sys2Proof.Machine

/-- Settles O21: a running state has a step, of the word at the cursor or to the end of the run, and no other state has one. -/
theorem enabledTransitions : Obligations.EnabledTransitions :=
  ⟨fun _ => ⟨fun ⟨_, ht⟩ => (step_next ht).1, step_isNext_of_running⟩, fun _ => step_of_pc_lt, fun _ => step_of_le_pc⟩

/-- Settles O19: what the fetch gives decides the step. -/
theorem stepRunsDecodedInstr : Obligations.StepRunsDecodedInstr :=
  fun _ hs => ⟨fun _ _ => step_of_instr hs, step_of_truncated hs⟩

/-- Settles O50: the program has no complete word, so the first transition is the end of the run. -/
theorem shortProgramEndsAtOnce : Obligations.ShortProgramEndsAtOnce := by
  intro p hp
  have hwords : p.length / 8 = 0 := Nat.div_eq_of_lt hp
  have hend : step (State.reset.startRun p) = .next (State.reset.startRun p).endRun := step_of_le_pc rfl hwords.le
  rw [runProgram_eq, hwords, transitions_zero, transitions_succ_of_step hend, transitions_zero]
  rfl

/-- Settles O2: `State.startRun` does not look at the state it is applied in. -/
theorem resetKeepsNothing : Obligations.ResetKeepsNothing := fun s _ p => ⟨rfl, startRun_prog s p⟩

/-- Settles O36: the three meanings do not mention field D. -/
theorem unusedFieldsIgnored : Obligations.UnusedFieldsIgnored := fun _ _ _ _ _ => ⟨rfl, rfl, rfl⟩

end Sys2Proof.Machine
end
